-- ==== Sys2Proof/Word.lean ====
section
/-! DEFINITION. The word types of the block `bit_mask_generators`: the command word, its opcode field, the error code
and the W-bit mask (spec/00_scope.md R8, R9; spec/10_state.md R20; spec/30_encoding.md R39). -/

namespace Sys2Proof

/-- The command word on the input port `cmd`: 16 bits, every one a defined 0 or 1 (R20, R25, R39). -/
abbrev CmdWord := BitVec 16

/-- The opcode field `OP = cmd[15:12]` (R39). -/
abbrev OpField := BitVec 4

/-- The code on the output port `err[2:0]` (R20, R82). -/
abbrev ErrCode := BitVec 3

/-- A mask: an unsigned vector of exactly `w` bits, bit 0 the least significant (R8, R9, R31). -/
abbrev Mask (w : Nat) := BitVec w

end Sys2Proof
end

