-- ==== Sys2Proof/Config.lean ====
section
/-! DEFINITION. What elaboration fixes for one block: the parameters of spec/00_scope.md R5 to R7, their
well-formedness check (spec/60_exceptions.md R83, spec/70_reset_and_hazards.md R98), and the values that the spec leaves
open (spec/93_implementation_defined.md I3, I5, I6, I10) as constants without a body. -/

namespace Sys2Proof

/-- The elaboration-time parameters of one block (R5, R6, R17): the element width `W` and `HAS_BUT_FROM_TO`.
They are fixed for the life of the block; no port reads or writes them. -/
structure Config where
  /-- `W`, the element width, a natural number (R5). -/
  w : Nat
  /-- `HAS_BUT_FROM_TO`: whether the operation `but_from_to` exists (R6). -/
  hasButFromTo : Bool
deriving DecidableEq, Repr

/-- The configuration's well-formedness check (R5, R83): `W` is one of 8, 16, 32 and 64. A configuration that fails it
is the elaboration-time rejection `TypeConstraintViolation`, and no step of the machine is defined for it. -/
abbrev Config.Supported (c : Config) : Prop :=
  c.w = 8 ∨ c.w = 16 ∨ c.w = 32 ∨ c.w = 64

/-- Every supported width is at least 2, the general bound for which R5 writes the operation rules. -/
theorem Config.two_le_of_supported {c : Config} (h : c.Supported) : 2 ≤ c.w := by
  rcases h with h | h | h | h <;> omega

/-- `PW`, the width of each bit-position field of the command word (R7). -/
def positionWidth : Nat := 6

/-- FREE VALUE (log 5; I3, I5, I10): what stands on `mask` where no rule gives a value, at the `draw`-th such
observation. It has no body, so nothing can be proved of the value. -/
opaque Config.anyMask : (w : Nat) → (draw : Nat) → Mask w

/-- FREE VALUE (log 5; I5, I10): what stands on `err` before the outputs have settled, at the `draw`-th such
observation. -/
opaque Config.anyErr : (draw : Nat) → ErrCode

/-- OPEN PARAMETER `T_PD` (log 4; R101, I6, D15): the propagation delay of an implementation of configuration `c`, in
a unit of time the spec does not give. -/
opaque Config.propagationDelay : Config → Nat

end Sys2Proof
end

