-- ==== Sys2Proof/Syntax.lean ====
section
/-! DEFINITION. The operations of the block as syntax: one constructor per row of spec/opcode_table.json
(spec/30_encoding.md R42), and what decoding answers (R45). -/

namespace Sys2Proof

/-- A command: one operation of R42 with the position operands it takes (R41). Positions are natural numbers, as R12
has them; which of them a command word can carry is `Instr.wellFormed`. A field an operation does not use (R43) is no
operand and has no place here. -/
inductive Instr where
  /-- `all`: every bit set (R53). -/
  | all
  /-- `none`: every bit clear (R54). -/
  | none
  /-- `msb`: only bit W-1 set (R55). -/
  | msb
  /-- `but_msb`: every bit but bit W-1 set (R56). -/
  | butMsb
  /-- `lsb`: only bit 0 set (R57). -/
  | lsb
  /-- `but_lsb`: every bit but bit 0 set (R58). -/
  | butLsb
  /-- `bit n`: only bit n set (R61). -/
  | bit (n : Nat)
  /-- `but_bit n`: every bit but bit n set (R62). -/
  | butBit (n : Nat)
  /-- `up_to n`: bits 0 to n set (R66). -/
  | upTo (n : Nat)
  /-- `down_to n`: bits n to W-1 set (R70). -/
  | downTo (n : Nat)
  /-- `from_to n1, n2`: bits n1 to n2 set (R73). -/
  | fromTo (n1 n2 : Nat)
  /-- `but_from_to n1, n2`: bits n1 to n2 clear, all others set (R76). -/
  | butFromTo (n1 n2 : Nat)
deriving DecidableEq, Repr

/-- What decoding a command word answers (R45): an operation with its operands, or `ILLEGAL(op)`. -/
inductive Decoded where
  /-- The word selects this operation. -/
  | instr (i : Instr)
  /-- The word's `OP` field selects no operation (R44, R47). -/
  | illegal (op : OpField)
deriving DecidableEq, Repr

end Sys2Proof
end

