-- ==== Sys2Proof/WellFormed.lean ====
section
/-! DEFINITION. Which commands a command word can carry (spec/30_encoding.md R40, R50) and which a configuration has
(spec/00_scope.md R6, R13). -/

namespace Sys2Proof

/-- A position fits a field of `PW` bits: it is in 0 to 63 (R7, R40, R50). -/
def fitsField (n : Nat) : Bool := decide (n < 2 ^ positionWidth)

/-- A command that can be encoded: every position operand fits its field (R50). A position of W or more still fits; the
block rejects it (R84). -/
def Instr.wellFormed : Instr → Bool
  | .all | .none | .msb | .butMsb | .lsb | .butLsb => true
  | .bit n | .butBit n | .upTo n | .downTo n => fitsField n
  | .fromTo n1 n2 | .butFromTo n1 n2 => fitsField n1 && fitsField n2

/-- The operation exists in a block with this value of `HAS_BUT_FROM_TO` (R6, R13, R47). -/
def Instr.available (hasButFromTo : Bool) : Instr → Bool
  | .all | .none | .msb | .butMsb | .lsb | .butLsb => true
  | .bit _ | .butBit _ | .upTo _ | .downTo _ | .fromTo _ _ => true
  | .butFromTo _ _ => hasButFromTo

end Sys2Proof
end

