-- ==== Sys2Proof/Decode.lean ====
section
/-! DEFINITION. Decoding a command word, and after it the encoder, both from spec/30_encoding.md (R39 to R48, R50). -/

namespace Sys2Proof

/-- Field `OP = cmd[15:12]` (R39). -/
def opField (cmd : CmdWord) : OpField := cmd.extractLsb' 12 4

/-- Operand `a`: field `A = cmd[5:0]`, zero-extended (R39, R40). -/
def fieldA (cmd : CmdWord) : Nat := (cmd.extractLsb' 0 positionWidth).toNat

/-- Operand `b`: field `B = cmd[11:6]`, zero-extended (R39, R40). -/
def fieldB (cmd : CmdWord) : Nat := (cmd.extractLsb' 6 positionWidth).toNat

/-- The decoder of R45: total on every 16-bit word; a word that selects no operation is `illegal` by its `OP` (R44,
R47). The operand roles are those of R41: `n` or `n1` is field A, `n2` is field B; other fields are ignored (R43). -/
def decode (hasButFromTo : Bool) (cmd : CmdWord) : Decoded :=
  match (opField cmd).toNat with
  | 0x0 => .instr .all
  | 0x1 => .instr .none
  | 0x2 => .instr .msb
  | 0x3 => .instr .butMsb
  | 0x4 => .instr .lsb
  | 0x5 => .instr .butLsb
  | 0x6 => .instr (.bit (fieldA cmd))
  | 0x7 => .instr (.butBit (fieldA cmd))
  | 0x8 => .instr (.upTo (fieldA cmd))
  | 0x9 => .instr (.downTo (fieldA cmd))
  | 0xA => .instr (.fromTo (fieldA cmd) (fieldB cmd))
  | 0xB => if hasButFromTo then .instr (.butFromTo (fieldA cmd) (fieldB cmd)) else .illegal (opField cmd)
  | _ => .illegal (opField cmd)

/-- `OPCODE(op)` of R50, from the opcode map of R42. -/
def Instr.opcode : Instr → Nat
  | .all => 0x0
  | .none => 0x1
  | .msb => 0x2
  | .butMsb => 0x3
  | .lsb => 0x4
  | .butLsb => 0x5
  | .bit _ => 0x6
  | .butBit _ => 0x7
  | .upTo _ => 0x8
  | .downTo _ => 0x9
  | .fromTo _ _ => 0xA
  | .butFromTo _ _ => 0xB

/-- The value of field A that R50 encodes: `n` or `n1`, and 0 where the operation takes no position. -/
def Instr.operandA : Instr → Nat
  | .all | .none | .msb | .butMsb | .lsb | .butLsb => 0
  | .bit n | .butBit n | .upTo n | .downTo n => n
  | .fromTo n1 _ | .butFromTo n1 _ => n1

/-- The value of field B that R50 encodes: `n2`, and 0 where the operation takes no second position. -/
def Instr.operandB : Instr → Nat
  | .all | .none | .msb | .butMsb | .lsb | .butLsb => 0
  | .bit _ | .butBit _ | .upTo _ | .downTo _ => 0
  | .fromTo _ n2 | .butFromTo _ n2 => n2

/-- The number of a command word with these fields: `OP·4096 + B·64 + A` (R39, R50). -/
def wordNumber (op b a : Nat) : Nat := op * 4096 + b * 64 + a

/-- The command word of a well-formed command (R50). -/
def encode (i : Instr) : CmdWord := BitVec.ofNat 16 (wordNumber i.opcode i.operandB i.operandA)

/-- Encoding with R50's check: a position outside 0 to 63 cannot be encoded. -/
def encodeChecked (i : Instr) : Option CmdWord := if i.wellFormed then some (encode i) else none

/-- The bits of the command word that an operation reads (R43): `OP`, and the fields its operands stand in. -/
def Instr.usedBits : Instr → CmdWord
  | .all | .none | .msb | .butMsb | .lsb | .butLsb => 0xF000
  | .bit _ | .butBit _ | .upTo _ | .downTo _ => 0xF03F
  | .fromTo _ _ | .butFromTo _ _ => 0xFFFF

/-- The mnemonic of R42. -/
def Instr.mnemonic : Instr → String
  | .all => "all"
  | .none => "none"
  | .msb => "msb"
  | .butMsb => "but_msb"
  | .lsb => "lsb"
  | .butLsb => "but_lsb"
  | .bit _ => "bit"
  | .butBit _ => "but_bit"
  | .upTo _ => "up_to"
  | .downTo _ => "down_to"
  | .fromTo _ _ => "from_to"
  | .butFromTo _ _ => "but_from_to"

/-- The opcode map of R42 as rows of mnemonic, match and mask (opcode_table.json). -/
def opcodeTable : List (String × CmdWord × CmdWord) :=
  [ ("all", 0x0000, 0xF000), ("none", 0x1000, 0xF000), ("msb", 0x2000, 0xF000), ("but_msb", 0x3000, 0xF000)
  , ("lsb", 0x4000, 0xF000), ("but_lsb", 0x5000, 0xF000), ("bit", 0x6000, 0xF000), ("but_bit", 0x7000, 0xF000)
  , ("up_to", 0x8000, 0xF000), ("down_to", 0x9000, 0xF000), ("from_to", 0xA000, 0xF000)
  , ("but_from_to", 0xB000, 0xF000) ]

/-- A command matches a row when `cmd & mask = match` (R42). -/
def rowMatches (cmd : CmdWord) (row : String × CmdWord × CmdWord) : Bool := cmd &&& row.2.2 == row.2.1

/-- The rows of the opcode map that a command matches. -/
def matchingRows (cmd : CmdWord) : List (String × CmdWord × CmdWord) := opcodeTable.filter (rowMatches cmd)

/-- The command word whose low `nbits` bits are `w`'s and whose other bits are 0. There is one format and one length
(R39, R48), so no bit stands above bit 15. -/
def tableWord (nbits w : Nat) : CmdWord := BitVec.ofNat 16 (w % 2 ^ nbits)

/-- What the decoder reads from a table row's word, with `HAS_BUT_FROM_TO` at its default `true` (R6). -/
def decodeTableWord (nbits w : Nat) : Option Instr :=
  match decode true (tableWord nbits w) with
  | .instr i => some i
  | .illegal _ => Option.none

end Sys2Proof
end

