-- ==== Sys2Proof/Machine/State.lean ====
section
/-! DEFINITION. The state of the model, the reasons a step can stop, and the state after reset. The block itself holds no
state (spec/10_state.md R15 to R19): State is what stands on the ports of one block and what elaboration fixed for it. -/

namespace Sys2Proof.Machine

/-- The sub-reasons of `RangeConstraintViolation` (R82), raised by the checks of R84. -/
inductive RangeViolation where
  /-- The position in field A (n or n1) is W or more. -/
  | aOutOfRange (a : Nat)
  /-- n1 is below W and the position in field B (n2) is W or more. -/
  | bOutOfRange (b : Nat)
  /-- n1 and n2 are below W and n1 is not below n2. -/
  | notAscending (a b : Nat)
deriving DecidableEq, Repr

/-- The rejection reasons that have a port code (R82). -/
inductive Rejection where
  /-- `RangeConstraintViolation`: a position outside [0, W), or n1 ≥ n2. -/
  | rangeConstraintViolation (v : RangeViolation)
  /-- `IllegalOperation(op)`: the `OP` field selects no operation (R44, R47). -/
  | illegalOperation (op : OpField)
deriving DecidableEq, Repr

/-- An outcome of `Gen` (R12): a mask, or a rejection with its reason. -/
inductive GenOutcome (w : Nat) where
  /-- `Ok(m)`. -/
  | ok (m : Mask w)
  /-- `Reject(r)`. -/
  | reject (r : Rejection)
deriving DecidableEq, Repr

/-- Why a step stops with a fault. -/
inductive Fault where
  /-- The command was rejected (R85: a run-time rejection is a fault that records the reason and the command word).
  Raised by every operation with positions (R84), by `but_from_to` where the block has none (R47), and by a reserved
  opcode (R44). Safe: it is what the spec asks of a model, and no mask can be concluded from it. -/
  | rejected (r : Rejection) (cmd : CmdWord)
deriving DecidableEq, Repr

/-- Why a step has no meaning. -/
inductive Refusal where
  /-- An instruction without a meaning in this model; no arm of `exec` answers so. Safe. -/
  | notModelled (mnemonic : String)
  /-- `TypeConstraintViolation(W)` (R82, R83): the configuration fails its well-formedness check, so no step of the
  machine is defined for it. Raised by every evaluation of such a state. Safe. -/
  | typeConstraintViolation (w : Nat)
deriving DecidableEq, Repr

/-- One block: its elaboration parameters and the values on its three ports (R20). The parameters are carried here so
that a statement about every state is a statement about every configuration; no step changes them (R17, R26). -/
structure State where
  /-- The elaboration parameters `W` and `HAS_BUT_FROM_TO` (R5, R6, R17). -/
  cfg : Config
  /-- Input port `cmd`, 16 bits, held by its driver (R20, R25). -/
  cmd : CmdWord
  /-- Output port `mask`, W bits: bit i on wire `mask[i]` (R20, R29). -/
  mask : Mask cfg.w
  /-- Output port `err`, 3 bits (R20, R82). -/
  err : ErrCode
deriving DecidableEq, Repr

/-- The state before anything is driven. The block has no reset (R96); this is the settled block of log 3: W = 64,
`HAS_BUT_FROM_TO = true` (its default, R6), `cmd = 0x0000`, and the outputs that R97 and R21 give that command. -/
def State.reset : State :=
  { cfg := { w := 64, hasButFromTo := true }, cmd := 0x0000, mask := 0xFFFFFFFFFFFFFFFF, err := 0b000 }

end Sys2Proof.Machine
end

