-- ==== Sys2Proof/Machine/Flags.lean ====
section
/-! DEFINITION. The block has no flags or condition codes (spec/10_state.md R18): this file holds the one status it
shows, the code on `err` (spec/60_exceptions.md R82), and how a code read from the port is understood
(spec/93_implementation_defined.md I4). -/

namespace Sys2Proof.Machine

/-- The code of an accepted command (R82). -/
def acceptedCode : ErrCode := 0b000

/-- `Code(r)`: the code on `err` for a rejection (R82). -/
def errCode : Rejection → ErrCode
  | .rangeConstraintViolation (.aOutOfRange _) => 0b001
  | .rangeConstraintViolation (.bOutOfRange _) => 0b010
  | .rangeConstraintViolation (.notAscending _ _) => 0b011
  | .illegalOperation _ => 0b100

/-- The code on `err` that a fault of the model stands for (R81). -/
def Fault.code : Fault → ErrCode
  | .rejected r _ => errCode r

end Sys2Proof.Machine
end

