-- ==== Sys2Proof/Machine/Ops.lean ====
section
/-! DEFINITION. The named operations: the W-bit primitives of spec/00_scope.md R10, the two iterative builders of
spec/42_range_mask_builders.md (R66, R70), and the one way an evaluation ends (spec/10_state.md R21,
spec/60_exceptions.md R81, R83, R85). The block has no memory, no registers and no trap entry or return (R15, R28, R90,
R91): rejecting is the shared operation that stands where a machine with traps would take an exception. -/

namespace Sys2Proof.Machine

/-- `v << k` within w bits. Only amounts below w are defined (R11, I1): a larger one cannot be written. -/
def shl {w : Nat} (v : Mask w) (k : Nat) (_below : k < w) : Mask w := v <<< k

/-- `v >> k` within w bits, defined for amounts below w only (R11, I1). -/
def shr {w : Nat} (v : Mask w) (k : Nat) (_below : k < w) : Mask w := v >>> k

/-- `zero_W`: every bit 0 (R10). -/
def zeroMask (w : Nat) : Mask w := 0#w

/-- `zext_W(1)`: "a one-bit value at position 0" (R10, R66). -/
def oneMask (w : Nat) : Mask w := 1#w

/-- `for k in 1..m: v <- body(v)`: the body done m times, no times when m = 0 (R10). -/
def repeatTimes {α : Type} (body : α → α) : Nat → α → α
  | 0, v => v
  | m + 1, v => repeatTimes body m (body v)

/-- `popcount(v)`: the number of set bits (R10). -/
def popcount {w : Nat} (v : Mask w) : Nat := (List.range w).countP fun k => v.getLsbD k

/-- One iteration of `up_to`: "OR the current value with itself shifted left by one position" (R66). -/
def extendUp {w : Nat} (hw : 2 ≤ w) (v : Mask w) : Mask w := v ||| shl v 1 hw

/-- One iteration of `down_to`: "OR the current value with itself shifted right by one position" (R70). -/
def extendDown {w : Nat} (hw : 2 ≤ w) (v : Mask w) : Mask w := v ||| shr v 1 hw

/-- The value with only bit w-1 set: `zext_W(1) << (W-1)` (R55, R70). -/
def topMask {w : Nat} (hw : 2 ≤ w) : Mask w := shl (oneMask w) (w - 1) (by omega)

/-- `UpToVal(W, n)`: the iteration of R66, n times from a one-bit value. -/
def upToVal {w : Nat} (hw : 2 ≤ w) (n : Nat) : Mask w := repeatTimes (extendUp hw) n (oneMask w)

/-- `DownToVal(W, n)`: the iteration of R70, W-1-n times from the top bit. -/
def downToVal {w : Nat} (hw : 2 ≤ w) (n : Nat) : Mask w := repeatTimes (extendDown hw) (w - 1 - n) (topMask hw)

/-- The outputs of an accepted command: `mask <- m ; err <- 0b000`, and nothing else (R21, R23). -/
def State.answer (s : State) (m : Mask s.cfg.w) : State := { s with mask := m, err := acceptedCode }

/-- Rejecting (R81, R85): no mask is produced, nothing is written or saved, and the fault records the reason and the
command word on `cmd`. -/
def State.reject (s : State) (r : Rejection) : Host.Outcome State Fault Refusal := .fault (.rejected r s.cmd)

/-- The port view of one outcome of `Gen` (R21). -/
def report (s : State) : GenOutcome s.cfg.w → Host.Outcome State Fault Refusal
  | .ok m => .next (s.answer m)
  | .reject r => s.reject r

/-- One evaluation (R12, R26) of the block `s`. It is defined for supported configurations only; any other is the
elaboration-time rejection `TypeConstraintViolation` (R83). -/
def evaluate (s : State) (g : 2 ≤ s.cfg.w → GenOutcome s.cfg.w) : Host.Outcome State Fault Refusal :=
  if h : s.cfg.Supported then report s (g (Config.two_le_of_supported h))
  else .refused (.typeConstraintViolation s.cfg.w)

/-- The driver of `cmd` drives a new command word; the block stores nothing (R34). The outputs follow at the next
evaluation. -/
def State.present (s : State) (cmd : CmdWord) : State := { s with cmd := cmd }

/-- The command the next evaluation reads: the level on the input port. There is no fetch (R16, R34). -/
def State.command (s : State) : CmdWord := s.cmd

end Sys2Proof.Machine
end

