-- ==== Sys2Proof/Machine/Operands.lean ====
section
/-! DEFINITION. The operand forms: no position, one position, two positions (spec/30_encoding.md R41), with the checks
`CheckPos` and `CheckRange` of spec/60_exceptions.md R84, made before anything is computed. -/

namespace Sys2Proof.Machine

/-- `CheckPos(W, n)` and then the rest of the operation, which may use that n is below W (R84). -/
def checkPos (w n : Nat) (rest : n < w → GenOutcome w) : GenOutcome w :=
  if h : n < w then rest h else .reject (.rangeConstraintViolation (.aOutOfRange n))

/-- `CheckRange(W, n1, n2)` and then the rest of the operation. The order of the tests is the priority of R86. -/
def checkRange (w n1 n2 : Nat) (rest : n1 < w → n2 < w → n1 < n2 → GenOutcome w) : GenOutcome w :=
  if h1 : n1 < w then
    if h2 : n2 < w then
      if h : n1 < n2 then rest h1 h2 h
      else .reject (.rangeConstraintViolation (.notAscending n1 n2))
    else .reject (.rangeConstraintViolation (.bOutOfRange n2))
  else .reject (.rangeConstraintViolation (.aOutOfRange n1))

end Sys2Proof.Machine
end

