-- ==== Sys2Proof/Machine/Primitive.lean ====
section
/-! DEFINITION. The primitive masks `all`, `none`, `msb`, `but_msb`, `lsb`, `but_lsb` (spec/40_primitive_masks.md): they
take no position and are never rejected (R60). For each operation, its row of `Gen` and its meaning. -/

namespace Sys2Proof.Machine

/-- `Gen(W, ALL, a, b)` (R53). -/
def genAll (w : Nat) : GenOutcome w := .ok (~~~ zeroMask w)

/-- `Gen(W, NONE, a, b)` (R54). -/
def genNone (w : Nat) : GenOutcome w := .ok (zeroMask w)

/-- `Gen(W, MSB, a, b)` (R55). -/
def genMsb {w : Nat} (hw : 2 ≤ w) : GenOutcome w := .ok (topMask hw)

/-- `Gen(W, BUT_MSB, a, b)` (R56). -/
def genButMsb {w : Nat} (hw : 2 ≤ w) : GenOutcome w := .ok (~~~ topMask hw)

/-- `Gen(W, LSB, a, b)` (R57). -/
def genLsb (w : Nat) : GenOutcome w := .ok (oneMask w)

/-- `Gen(W, BUT_LSB, a, b)` (R58). -/
def genButLsb (w : Nat) : GenOutcome w := .ok (~~~ oneMask w)

/-- The meaning of `all` (R53). -/
def execAll (s : State) : Host.Outcome State Fault Refusal := evaluate s fun _ => genAll s.cfg.w

/-- The meaning of `none` (R54). -/
def execNone (s : State) : Host.Outcome State Fault Refusal := evaluate s fun _ => genNone s.cfg.w

/-- The meaning of `msb` (R55). -/
def execMsb (s : State) : Host.Outcome State Fault Refusal := evaluate s fun hw => genMsb hw

/-- The meaning of `but_msb` (R56). -/
def execButMsb (s : State) : Host.Outcome State Fault Refusal := evaluate s fun hw => genButMsb hw

/-- The meaning of `lsb` (R57). -/
def execLsb (s : State) : Host.Outcome State Fault Refusal := evaluate s fun _ => genLsb s.cfg.w

/-- The meaning of `but_lsb` (R58). -/
def execButLsb (s : State) : Host.Outcome State Fault Refusal := evaluate s fun _ => genButLsb s.cfg.w

end Sys2Proof.Machine
end

