-- ==== Sys2Proof/Machine/Range.lean ====
section
/-! DEFINITION. The range mask builders `up_to`, `down_to`, `from_to` and `but_from_to`
(spec/42_range_mask_builders.md). -/

namespace Sys2Proof.Machine

/-- `Gen(W, UP_TO, n, b)` (R66). -/
def genUpTo {w : Nat} (hw : 2 ≤ w) (n : Nat) : GenOutcome w := checkPos w n fun _ => .ok (upToVal hw n)

/-- `Gen(W, DOWN_TO, n, b)` (R70). -/
def genDownTo {w : Nat} (hw : 2 ≤ w) (n : Nat) : GenOutcome w := checkPos w n fun _ => .ok (downToVal hw n)

/-- `Gen(W, FROM_TO, n1, n2)`: `up_to n2` AND `down_to n1` (R73). -/
def genFromTo {w : Nat} (hw : 2 ≤ w) (n1 n2 : Nat) : GenOutcome w :=
  checkRange w n1 n2 fun _ _ _ => .ok (upToVal hw n2 &&& downToVal hw n1)

/-- `Gen(W, BUT_FROM_TO, n1, n2)` (R76): the literal complement of `from_to`, with its checks. A block without the
operation rejects it with `IllegalOperation(0xB)` before any check (R45, R47, R86). -/
def genButFromTo {w : Nat} (hw : 2 ≤ w) (hasButFromTo : Bool) (n1 n2 : Nat) : GenOutcome w :=
  if hasButFromTo then checkRange w n1 n2 fun _ _ _ => .ok (~~~ (upToVal hw n2 &&& downToVal hw n1))
  else .reject (.illegalOperation 0xB)

/-- The meaning of `up_to n` (R66). -/
def execUpTo (n : Nat) (s : State) : Host.Outcome State Fault Refusal := evaluate s fun hw => genUpTo hw n

/-- The meaning of `down_to n` (R70). -/
def execDownTo (n : Nat) (s : State) : Host.Outcome State Fault Refusal := evaluate s fun hw => genDownTo hw n

/-- The meaning of `from_to n1, n2` (R73). -/
def execFromTo (n1 n2 : Nat) (s : State) : Host.Outcome State Fault Refusal := evaluate s fun hw => genFromTo hw n1 n2

/-- The meaning of `but_from_to n1, n2` (R76). -/
def execButFromTo (n1 n2 : Nat) (s : State) : Host.Outcome State Fault Refusal :=
  evaluate s fun hw => genButFromTo hw s.cfg.hasButFromTo n1 n2

end Sys2Proof.Machine
end

