-- ==== Sys2Proof/Machine/Selector.lean ====
section
/-! DEFINITION. The single-bit selectors `bit` and `but_bit` (spec/41_single_bit_selectors.md). -/

namespace Sys2Proof.Machine

/-- `Gen(W, BIT, n, b)` (R61). -/
def genBit (w n : Nat) : GenOutcome w := checkPos w n fun below => .ok (shl (oneMask w) n below)

/-- `Gen(W, BUT_BIT, n, b)` (R62). -/
def genButBit (w n : Nat) : GenOutcome w := checkPos w n fun below => .ok (~~~ shl (oneMask w) n below)

/-- The meaning of `bit n` (R61). -/
def execBit (n : Nat) (s : State) : Host.Outcome State Fault Refusal := evaluate s fun _ => genBit s.cfg.w n

/-- The meaning of `but_bit n` (R62). -/
def execButBit (n : Nat) (s : State) : Host.Outcome State Fault Refusal := evaluate s fun _ => genButBit s.cfg.w n

end Sys2Proof.Machine
end

