-- ==== Sys2Proof/Machine/Dispatch.lean ====
section
/-! DEFINITION. The meaning of every command, one arm per constructor of `Instr`. -/

namespace Sys2Proof.Machine

def exec (i : Instr) (s : State) : Host.Outcome State Fault Refusal :=
  match i with
  | .all => Sys2Proof.Machine.execAll s
  | .none => Sys2Proof.Machine.execNone s
  | .msb => Sys2Proof.Machine.execMsb s
  | .butMsb => Sys2Proof.Machine.execButMsb s
  | .lsb => Sys2Proof.Machine.execLsb s
  | .butLsb => Sys2Proof.Machine.execButLsb s
  | .bit n => Sys2Proof.Machine.execBit n s
  | .butBit n => Sys2Proof.Machine.execButBit n s
  | .upTo n => Sys2Proof.Machine.execUpTo n s
  | .downTo n => Sys2Proof.Machine.execDownTo n s
  | .fromTo n1 n2 => Sys2Proof.Machine.execFromTo n1 n2 s
  | .butFromTo n1 n2 => Sys2Proof.Machine.execButFromTo n1 n2 s

end Sys2Proof.Machine
end

