-- ==== Sys2Proof/Machine/Step.lean ====
section
/-! DEFINITION. One step of the machine: one evaluation of the command now on `cmd` (spec/10_state.md R21, R26). -/

namespace Sys2Proof.Machine

/-- One evaluation (R21, R45): the command word is decoded and the operation it selects runs; a word that selects no
operation is rejected with `IllegalOperation` (R44, R47). The driver keeps holding `cmd`. -/
def step (s : State) : Host.Outcome State Fault Refusal :=
  match decode s.cfg.hasButFromTo s.command with
  | .instr i => exec i s
  | .illegal op => evaluate s fun _ => .reject (.illegalOperation op)

/-- `s` with a table row's word driven on `cmd`, where the next evaluation reads it (log 2). -/
def State.withFetchWord (s : State) (nbits w : Nat) : State := s.present (tableWord nbits w)

end Sys2Proof.Machine
end

