-- ==== Sys2Proof/Machine/Assembler.lean ====
section
/-! DEFINITION. The text of commands (spec/30_encoding.md R49 to R52): the assembler for a line and for a program, and the
disassembler for a word. Texts are lists of characters. What R49 leaves open about white space and directives is in
log 8; the `.illegal` line is in log 9. -/

namespace Sys2Proof.Machine

/-- A line or a piece of one. -/
abbrev Text := List Char

/-- Characters that separate words (log 8). -/
def isBlank (c : Char) : Bool := c == ' ' || c == '\t' || c == '\r'

/-- The text before the first `;`, which starts a comment (R49). -/
def dropComment (t : Text) : Text := t.takeWhile (· != ';')

/-- The text without blanks at either end. -/
def trim (t : Text) : Text := ((t.dropWhile isBlank).reverse.dropWhile isBlank).reverse

/-- The pieces of a text between its commas. -/
def splitCommas : Text → List Text
  | [] => [[]]
  | c :: cs =>
    if c == ',' then [] :: splitCommas cs
    else match splitCommas cs with
      | [] => [[c]]
      | piece :: pieces => (c :: piece) :: pieces

/-- The value of a decimal digit. -/
def decimalDigit? (c : Char) : Option Nat :=
  if 48 ≤ c.toNat && c.toNat ≤ 57 then some (c.toNat - 48) else none

/-- The value of a hexadecimal digit, in either case (log 8). -/
def hexDigit? (c : Char) : Option Nat :=
  if 48 ≤ c.toNat && c.toNat ≤ 57 then some (c.toNat - 48)
  else if 65 ≤ c.toNat && c.toNat ≤ 70 then some (c.toNat - 55)
  else if 97 ≤ c.toNat && c.toNat ≤ 102 then some (c.toNat - 87)
  else none

/-- The number whose remaining digits in the given base are `t`, `acc` being the number read so far. -/
def digits? (base : Nat) (digit? : Char → Option Nat) (acc : Nat) : Text → Option Nat
  | [] => some acc
  | c :: cs =>
    match digit? c with
    | some d => digits? base digit? (acc * base + d) cs
    | none => none

/-- A number: decimal, or hexadecimal with prefix `0x` (R49). -/
def number? (t : Text) : Option Nat :=
  if t.take 2 == ['0', 'x'] && !(t.drop 2).isEmpty then digits? 16 hexDigit? 0 (t.drop 2)
  else if t.isEmpty then none
  else digits? 10 decimalDigit? 0 t

/-- All the numbers, if every text is one. -/
def numbers? : List Text → Option (List Nat)
  | [] => some []
  | t :: ts =>
    match number? t, numbers? ts with
    | some n, some ns => some (n :: ns)
    | _, _ => none

/-- The operand texts of a line: none, or those its commas separate (R49). -/
def operandTexts (t : Text) : List Text := if t.isEmpty then [] else (splitCommas t).map trim

/-- The mnemonic of R42 as text. -/
def mnemonicText : Instr → Text
  | .all => ['a', 'l', 'l']
  | .none => ['n', 'o', 'n', 'e']
  | .msb => ['m', 's', 'b']
  | .butMsb => ['b', 'u', 't', '_', 'm', 's', 'b']
  | .lsb => ['l', 's', 'b']
  | .butLsb => ['b', 'u', 't', '_', 'l', 's', 'b']
  | .bit _ => ['b', 'i', 't']
  | .butBit _ => ['b', 'u', 't', '_', 'b', 'i', 't']
  | .upTo _ => ['u', 'p', '_', 't', 'o']
  | .downTo _ => ['d', 'o', 'w', 'n', '_', 't', 'o']
  | .fromTo _ _ => ['f', 'r', 'o', 'm', '_', 't', 'o']
  | .butFromTo _ _ => ['b', 'u', 't', '_', 'f', 'r', 'o', 'm', '_', 't', 'o']

/-- The commands that take exactly these operands (R41, R49). -/
def commandsWith : List Nat → List Instr
  | [] => [.all, .none, .msb, .butMsb, .lsb, .butLsb]
  | [n] => [.bit n, .butBit n, .upTo n, .downTo n]
  | [n1, n2] => [.fromTo n1 n2, .butFromTo n1 n2]
  | _ => []

/-- The command with this mnemonic and these operands. There are no pseudo-instructions (R51). -/
def namedCommand? (mnemonic : Text) (operands : List Nat) : Option Instr :=
  (commandsWith operands).find? fun i => mnemonicText i == mnemonic

/-- What one line of a program text says. -/
inductive AsmLine where
  /-- Nothing, or a comment. -/
  | blank
  /-- `.width W`: the instance parameter the program is meant for; it encodes to nothing (R49). -/
  | width (w : Nat)
  /-- `.but_from_to on` or `.but_from_to off`; it encodes to nothing (R49). -/
  | butFromTo (on : Bool)
  /-- A command. -/
  | command (i : Instr)
  /-- `.illegal 0xHHHH`: the word itself (R52; log 9). -/
  | word (cmd : CmdWord)
  /-- The assembler rejects the line: an operand is outside 0 to 63 (R50). -/
  | operandTooWide
  /-- The assembler rejects the line: it is no command and no directive of R49. -/
  | unreadable
deriving DecidableEq, Repr

/-- A line that starts with the word `head` and goes on with `rest` (R49, R50). -/
def assembleWords (head rest : Text) : AsmLine :=
  if head == ['.', 'w', 'i', 'd', 't', 'h'] then
    match number? rest with
    | some w => .width w
    | none => .unreadable
  else if head == ['.', 'b', 'u', 't', '_', 'f', 'r', 'o', 'm', '_', 't', 'o'] then
    if rest == ['o', 'n'] then .butFromTo true
    else if rest == ['o', 'f', 'f'] then .butFromTo false
    else .unreadable
  else if head == ['.', 'i', 'l', 'l', 'e', 'g', 'a', 'l'] then
    match number? rest with
    | some n => if n < 2 ^ 16 then .word (BitVec.ofNat 16 n) else .unreadable
    | none => .unreadable
  else
    match numbers? (operandTexts rest) with
    | none => .unreadable
    | some operands =>
      match namedCommand? head operands with
      | none => .unreadable
      | some i => if i.wellFormed then .command i else .operandTooWide

/-- One line of a program text (R49). -/
def assembleLine (line : Text) : AsmLine :=
  let body := trim (dropComment line)
  if body.isEmpty then .blank
  else assembleWords (body.takeWhile fun c => !isBlank c) (trim (body.dropWhile fun c => !isBlank c))

/-- The command word a line is encoded to: a directive, a blank line and a rejected line have none (R49, R50). -/
def AsmLine.encoded : AsmLine → Option CmdWord
  | .command i => encodeChecked i
  | .word cmd => some cmd
  | .blank | .width _ | .butFromTo _ | .operandTooWide | .unreadable => none

/-- A program text once assembled: what its directives name (R49) and its command words in order. -/
structure Program where
  /-- The `W` of its `.width` directive, if it has one. -/
  width : Option Nat
  /-- The value of its `.but_from_to` directive, if it has one. -/
  butFromTo : Option Bool
  /-- The command words. -/
  words : List CmdWord
deriving DecidableEq, Repr

/-- The program with one more line; none where the line is rejected, or a directive does not open the text or stands
twice (R49; log 8). -/
def Program.addLine (p : Program) (line : AsmLine) : Option Program :=
  match line with
  | .blank => some p
  | .width w => if p.words.isEmpty && p.width.isNone then some { p with width := some w } else none
  | .butFromTo on => if p.words.isEmpty && p.butFromTo.isNone then some { p with butFromTo := some on } else none
  | .command i => (encodeChecked i).map fun cmd => { p with words := p.words ++ [cmd] }
  | .word cmd => some { p with words := p.words ++ [cmd] }
  | .operandTooWide | .unreadable => none

/-- The program with these further lines of text. -/
def Program.addText (p : Program) : List Text → Option Program
  | [] => some p
  | line :: lines =>
    match p.addLine (assembleLine line) with
    | some q => q.addText lines
    | none => none

/-- A program text, line by line (R49). -/
def assemble (lines : List Text) : Option Program :=
  Program.addText { width := none, butFromTo := none, words := [] } lines

/-- The configuration that a program's directives name: `HAS_BUT_FROM_TO` defaults to `true` (R6), and W has no default
(R5). -/
def Program.config? (p : Program) : Option Config :=
  p.width.map fun w => { w := w, hasButFromTo := p.butFromTo.getD true }

/-- A hexadecimal digit, upper case. -/
def hexChar (d : Nat) : Char := if d < 10 then Char.ofNat (48 + d) else Char.ofNat (55 + d)

/-- A position in decimal (R52). -/
def decimal (n : Nat) : Text := Nat.toDigits 10 n

/-- A whole word as four hexadecimal digits (R52). -/
def hexWord (cmd : CmdWord) : Text :=
  [hexChar (cmd.toNat / 4096), hexChar (cmd.toNat / 256 % 16), hexChar (cmd.toNat / 16 % 16), hexChar (cmd.toNat % 16)]

/-- The operands a command prints: only those it takes, in the source's order (R49, R52). -/
def operandsText : Instr → Text
  | .all | .none | .msb | .butMsb | .lsb | .butLsb => []
  | .bit n | .butBit n | .upTo n | .downTo n => ' ' :: decimal n
  | .fromTo n1 n2 | .butFromTo n1 n2 => ' ' :: (decimal n1 ++ [',', ' '] ++ decimal n2)

/-- A command as text (R49). -/
def commandText (i : Instr) : Text := mnemonicText i ++ operandsText i

/-- The disassembler (R52): the mnemonic and the operands taken, or `.illegal 0xHHHH` for a reserved word. -/
def disassemble (hasButFromTo : Bool) (cmd : CmdWord) : Text :=
  match decode hasButFromTo cmd with
  | .instr i => commandText i
  | .illegal _ => ['.', 'i', 'l', 'l', 'e', 'g', 'a', 'l', ' ', '0', 'x'] ++ hexWord cmd

end Sys2Proof.Machine
end

