-- ==== Sys2Proof/Machine/Driver.lean ====
section
/-! DEFINITION. A program: command words driven on `cmd` one after another, each held until the outputs settle
(spec/95_test_vectors.md L3). The driver stands outside the block; a rejection leaves it free to drive the next command
(spec/60_exceptions.md R90, R91). -/

namespace Sys2Proof.Machine

/-- One command driven and evaluated. -/
def driveCommand (s : State) (cmd : CmdWord) : Host.Outcome State Fault Refusal := step (s.present cmd)

/-- The ports after a command was driven: after a rejection `err` shows its code and `mask` any value (R21, R81; the
`draw`-th free one). -/
def afterCommand (s : State) (cmd : CmdWord) (draw : Nat) : State :=
  match driveCommand s cmd with
  | .next t => t
  | .fault f => { s.present cmd with mask := Config.anyMask s.cfg.w draw, err := f.code }
  | .refused _ => s.present cmd

/-- The outcomes of a program's commands in order. The number of commands still to come tells the draws apart. -/
def runCommands (s : State) : List CmdWord → List (Host.Outcome State Fault Refusal)
  | [] => []
  | cmd :: rest => driveCommand s cmd :: runCommands (afterCommand s cmd rest.length) rest

end Sys2Proof.Machine
end

