-- ==== Sys2Proof/Machine/Gen.lean ====
section
/-! DEFINITION. The block as the one total function `Gen` of spec/00_scope.md R12, over decoded commands
(spec/30_encoding.md R45), with no state before or after (spec/10_state.md R26). -/

namespace Sys2Proof.Machine

/-- `Gen(W, op, a, b)` (R12, R45): the outcome depends on nothing but the configuration and the decoded command. -/
def gen (c : Config) (hw : 2 ≤ c.w) : Decoded → GenOutcome c.w
  | .instr .all => genAll c.w
  | .instr .none => genNone c.w
  | .instr .msb => genMsb hw
  | .instr .butMsb => genButMsb hw
  | .instr .lsb => genLsb c.w
  | .instr .butLsb => genButLsb c.w
  | .instr (.bit n) => genBit c.w n
  | .instr (.butBit n) => genButBit c.w n
  | .instr (.upTo n) => genUpTo hw n
  | .instr (.downTo n) => genDownTo hw n
  | .instr (.fromTo n1 n2) => genFromTo hw n1 n2
  | .instr (.butFromTo n1 n2) => genButFromTo hw c.hasButFromTo n1 n2
  | .illegal op => .reject (.illegalOperation op)

/-- The outcome of one command word: `Gen` of its decoding (R21). -/
def generate (c : Config) (hw : 2 ≤ c.w) (cmd : CmdWord) : GenOutcome c.w := gen c hw (decode c.hasButFromTo cmd)

end Sys2Proof.Machine
end

