-- ==== Sys2Proof/Machine/Ports.lean ====
section
/-! DEFINITION. The two outputs as a consumer sees them on the pins: settled (spec/10_state.md R21), and sampled some time
after `cmd` changed (spec/70_reset_and_hazards.md R97, R101 to R103). Where the spec leaves a value open there, it is a
constant of Config without a body (log 4, log 5). -/

namespace Sys2Proof.Machine

/-- The output ports (R20). -/
structure Ports (w : Nat) where
  /-- Port `mask`. -/
  mask : Mask w
  /-- Port `err`. -/
  err : ErrCode
deriving DecidableEq, Repr

/-- The settled outputs of one outcome (R21): of `Ok(m)`, the mask and code 0; of `Reject(r)`, the code of `r`, and on
`mask` any value (the `draw`-th free one). -/
def settledPorts {w : Nat} (o : GenOutcome w) (draw : Nat) : Ports w :=
  match o with
  | .ok m => { mask := m, err := acceptedCode }
  | .reject r => { mask := Config.anyMask w draw, err := errCode r }

/-- The settled outputs of a block (R21, R97). A block exists only for a supported configuration (R83). -/
def State.ports (s : State) (h : s.cfg.Supported) (draw : Nat) : Ports s.cfg.w :=
  settledPorts (generate s.cfg (Config.two_le_of_supported h) s.cmd) draw

/-- The outputs sampled `elapsed` time after `cmd` last changed, or after power and input became stable (R97, R101):
any value until `T_PD` has passed, the settled outputs from then on. -/
def State.sampledPorts (s : State) (h : s.cfg.Supported) (elapsed draw : Nat) : Ports s.cfg.w :=
  if Config.propagationDelay s.cfg ≤ elapsed then s.ports h draw
  else { mask := Config.anyMask s.cfg.w draw, err := Config.anyErr draw }

/-- What the outputs tell a consumer. -/
inductive PortReading (w : Nat) where
  /-- The command was accepted and this is its mask. -/
  | mask (m : Mask w)
  /-- The command was rejected with this code; there is no mask. -/
  | rejection (code : ErrCode)
  /-- A code that is never driven (R82): a fault of the trace it was read from (I4). -/
  | neverDriven (code : ErrCode)
deriving DecidableEq, Repr

/-- Reading settled outputs, or a port trace: `mask` counts only while `err` is 0 (R21), and codes 101 to 111 are never
driven (R82, I4). -/
def readPorts {w : Nat} (p : Ports w) : PortReading w :=
  if p.err = acceptedCode then .mask p.mask
  else if p.err.toNat ≤ 4 then .rejection p.err
  else .neverDriven p.err

end Sys2Proof.Machine
end

