-- ==== Sys2Proof/Safety.lean ====
section
/-! DEFINITION. What counts as a good evaluation, in the terms the statements use: the closed form of every operation,
bit by bit; the reason, if any, for which a command is rejected; and the invariant that the outputs belong to the
command now on `cmd`. -/

namespace Sys2Proof.Machine

/-- Bit `k` of the mask of a command at width `w`, in closed form (R53 to R58, R61, R62, R67, R71, R74, R76): said
without the iterations and compositions that the meanings compute. -/
def selects (w : Nat) (i : Instr) (k : Nat) : Bool :=
  match i with
  | .all => true
  | .none => false
  | .msb => k == w - 1
  | .butMsb => k != w - 1
  | .lsb => k == 0
  | .butLsb => k != 0
  | .bit n => k == n
  | .butBit n => k != n
  | .upTo n => decide (k ≤ n)
  | .downTo n => decide (n ≤ k)
  | .fromTo n1 n2 => decide (n1 ≤ k ∧ k ≤ n2)
  | .butFromTo n1 n2 => decide (k < n1 ∨ n2 < k)

/-- A command the block accepts (R84, R88): the operation exists, each position is below W, and a range is ascending. -/
def Legal (c : Config) : Instr → Prop
  | .all | .none | .msb | .butMsb | .lsb | .butLsb => True
  | .bit n | .butBit n | .upTo n | .downTo n => n < c.w
  | .fromTo n1 n2 => n1 < n2 ∧ n2 < c.w
  | .butFromTo n1 n2 => c.hasButFromTo = true ∧ n1 < n2 ∧ n2 < c.w

/-- The causes of R82's table for a command with two positions: A out of range, else B out of range, else not
ascending. -/
def RangeRejectedFor (w n1 n2 : Nat) (r : Rejection) : Prop :=
  (w ≤ n1 ∧ r = .rangeConstraintViolation (.aOutOfRange n1)) ∨
  (n1 < w ∧ w ≤ n2 ∧ r = .rangeConstraintViolation (.bOutOfRange n2)) ∨
  (n1 < w ∧ n2 < w ∧ n2 ≤ n1 ∧ r = .rangeConstraintViolation (.notAscending n1 n2))

/-- The causes of R82's table: the command `i` meets the cause of the reason `r`. -/
def RejectedFor (c : Config) (i : Instr) (r : Rejection) : Prop :=
  match i with
  | .all | .none | .msb | .butMsb | .lsb | .butLsb => False
  | .bit n | .butBit n | .upTo n | .downTo n => c.w ≤ n ∧ r = .rangeConstraintViolation (.aOutOfRange n)
  | .fromTo n1 n2 => RangeRejectedFor c.w n1 n2 r
  | .butFromTo n1 n2 =>
    (c.hasButFromTo = false ∧ r = .illegalOperation 0xB) ∨
    (c.hasButFromTo = true ∧ RangeRejectedFor c.w n1 n2 r)

/-- The outcome `o` is the next state of `s` in which only the outputs are written: `mask` is `m` and `err` shows
acceptance. The parameters and the command are as before (R17, R21, R23). -/
def Yields (o : Host.Outcome State Fault Refusal) (s : State) (m : Mask s.cfg.w) : Prop :=
  o = .next { s with mask := m, err := 0b000 }

/-- The outcome `o` is such a next state of `s`, and its mask has exactly the bits that `p` holds of. -/
def YieldsBits (o : Host.Outcome State Fault Refusal) (s : State) (p : Nat → Prop) : Prop :=
  ∃ m : Mask s.cfg.w, Yields o s m ∧ ∀ k, k < s.cfg.w → (m.getLsbD k = true ↔ p k)

/-- The outcome `o` rejects the command on `cmd` of `s` for the reason `r` (R81, R85). -/
def Rejects (o : Host.Outcome State Fault Refusal) (s : State) (r : Rejection) : Prop :=
  o = .fault (.rejected r s.cmd)

/-- Two command words have the same outcome in the block `s`: the same mask, or the same reason of rejection. -/
def SameOutcome (s : State) (cmd cmd' : CmdWord) : Prop :=
  (∀ m : Mask s.cfg.w,
    Yields (step (s.present cmd)) (s.present cmd) m ↔ Yields (step (s.present cmd')) (s.present cmd') m) ∧
  (∀ r, Rejects (step (s.present cmd)) (s.present cmd) r ↔ Rejects (step (s.present cmd')) (s.present cmd') r)

/-- The invariant of an accepted evaluation (R21, R97, R103): the block exists, and its outputs are those of the command
now on `cmd`, whose mask is given in closed form. -/
def Settled (s : State) : Prop :=
  s.cfg.Supported ∧ s.err = 0b000 ∧
    ∃ i, decode s.cfg.hasButFromTo s.cmd = .instr i ∧ Legal s.cfg i ∧
      ∀ k, k < s.cfg.w → s.mask.getLsbD k = selects s.cfg.w i k

/-- The premise `SampledSettled` (R102, D15): the outputs are sampled only after `T_PD` has passed since `cmd` last
changed. -/
def SampledSettled (c : Config) (elapsed : Nat) : Prop := Config.propagationDelay c ≤ elapsed

end Sys2Proof.Machine
end

