-- ==== Sys2Proof/Certificates/Slice0/Obligations.lean ====
section
/-! DEFINITION. The statements for the provers. A statement about `step` or `exec` is about settled outputs: the model is
zero-delay, and the premise `SampledSettled` of spec/70_reset_and_hazards.md R102 stands where sampling is spoken of. -/

open Sys2Proof Sys2Proof.Machine

/-! ## Decoding and encoding -/

/-- R21, R45: a step runs the command that the word on `cmd` decodes to; a word that decodes to none is rejected. -/
def Obligations.StepRunsDecodedCommand : Prop :=
  (∀ (s : State) (i : Instr), decode s.cfg.hasButFromTo s.cmd = .instr i → step s = exec i s) ∧
  (∀ (s : State) (op : OpField), s.cfg.Supported → decode s.cfg.hasButFromTo s.cmd = .illegal op →
    Rejects (step s) s (.illegalOperation op))

/-- R39, R42: words written out from the format `CMD16` decode to the commands they stand for. -/
def Obligations.SampleWordsDecode : Prop :=
  decode true 0b0000_000000_000000 = .instr .all ∧ decode true 0b0001_000000_000000 = .instr .none ∧
  decode true 0b0010_000000_000000 = .instr .msb ∧ decode true 0b0011_000000_000000 = .instr .butMsb ∧
  decode true 0b0100_000000_000000 = .instr .lsb ∧ decode true 0b0101_000000_000000 = .instr .butLsb ∧
  decode true 0b0110_000000_000111 = .instr (.bit 7) ∧ decode true 0b0111_000000_000011 = .instr (.butBit 3) ∧
  decode true 0b1000_000000_111111 = .instr (.upTo 63) ∧ decode true 0b1001_000000_000101 = .instr (.downTo 5) ∧
  decode true 0b1010_000101_000010 = .instr (.fromTo 2 5) ∧
  decode true 0b1011_100000_011111 = .instr (.butFromTo 31 32) ∧
  decode false 0b1011_100000_011111 = .illegal 0xB ∧ decode true 0b1111_111111_111111 = .illegal 0xF

/-- R50: every command that can be encoded is decoded to itself; in a block without `but_from_to`, a word encoded from it
is the illegal operation 0xB. -/
def Obligations.DecodeEncodeRoundTrip : Prop :=
  ∀ (has : Bool) (i : Instr), i.wellFormed = true →
    decode has (encode i) = if i.available has then .instr i else .illegal 0xB

/-- R43, R50: a word that decodes to a command is that command's encoding up to the fields the command ignores, and such a
command is one that can be encoded and that the block has. -/
def Obligations.EncodingOfDecodedKeepsUsedFields : Prop :=
  ∀ (has : Bool) (cmd : CmdWord) (i : Instr), decode has cmd = .instr i →
    i.wellFormed = true ∧ i.available has = true ∧ encode i = cmd &&& i.usedBits

/-- R42: a command whose `OP` is 0x0 to 0xB matches exactly one row of the opcode map, the row of the operation it decodes
to; any other command matches none. -/
def Obligations.CommandMatchesExactlyOneRow : Prop :=
  ∀ cmd : CmdWord,
    ((opField cmd).toNat ≤ 0xB → ∃ (i : Instr) (row : String × CmdWord × CmdWord),
      decode true cmd = .instr i ∧ matchingRows cmd = [row] ∧ row.1 = i.mnemonic ∧
        i.opcode = (opField cmd).toNat) ∧
    (0xB < (opField cmd).toNat → matchingRows cmd = [] ∧ decode true cmd = .illegal (opField cmd))

/-- R39: the fields of the one format `CMD16`, and the number of the word they stand in. -/
def Obligations.CommandWordIsItsFields : Prop :=
  ∀ cmd : CmdWord,
    cmd.toNat = (opField cmd).toNat * 4096 + fieldB cmd * 64 + fieldA cmd ∧
    (∀ k, k < 4 → (opField cmd).getLsbD k = cmd.getLsbD (12 + k)) ∧
    (∀ k, (fieldB cmd).testBit k = (decide (k < 6) && cmd.getLsbD (6 + k))) ∧
    (∀ k, (fieldA cmd).testBit k = (decide (k < 6) && cmd.getLsbD k))

/-- R43: a field that an operation does not use affects neither `mask` nor `err`. For OP 0x0 to 0x5 both fields are
ignored, for OP 0x6 to 0x9 field B is; an ignored field may hold any value, W and more among them. -/
def Obligations.IgnoredFieldsChangeNothing : Prop :=
  ∀ (s : State) (cmd cmd' : CmdWord), opField cmd = opField cmd' →
    ((opField cmd).toNat ≤ 0x5 ∨ ((opField cmd).toNat ≤ 0x9 ∧ fieldA cmd = fieldA cmd')) →
    SameOutcome s cmd cmd'

/-- R44: the reserved operations are rejected with `IllegalOperation`, whatever the fields hold. -/
def Obligations.ReservedOperationsAreRejected : Prop :=
  ∀ s : State, s.cfg.Supported → 0xC ≤ (opField s.cmd).toNat →
    Rejects (step s) s (.illegalOperation (opField s.cmd))

/-- R47: without `HAS_BUT_FROM_TO`, `OP = 0xB` is rejected as the reserved operations are; with it, `OP = 0xB` selects
`but_from_to`. -/
def Obligations.ButFromToFollowsItsParameter : Prop :=
  ∀ s : State, s.cfg.Supported → opField s.cmd = 0xB →
    (s.cfg.hasButFromTo = false → Rejects (step s) s (.illegalOperation 0xB)) ∧
    (s.cfg.hasButFromTo = true →
      decode s.cfg.hasButFromTo s.cmd = .instr (.butFromTo (fieldA s.cmd) (fieldB s.cmd)))

/-! ## Primitive masks -/

/-- R53: `all`. -/
def Obligations.AllSetsEveryBit : Prop :=
  (∀ (has : Bool) (cmd : CmdWord), opField cmd = 0x0 → decode has cmd = .instr .all) ∧
  (∀ s : State, s.cfg.Supported →
    Yields (exec .all s) s (~~~ 0#s.cfg.w) ∧ YieldsBits (exec .all s) s fun _ => True) ∧
  (∀ s : State, s.cfg.w = 8 → s.cmd = 0x0000 → Yields (step s) s (BitVec.ofNat s.cfg.w 0xFF))

/-- R54: `none`. -/
def Obligations.NoneClearsEveryBit : Prop :=
  (∀ (has : Bool) (cmd : CmdWord), opField cmd = 0x1 → decode has cmd = .instr .none) ∧
  (∀ s : State, s.cfg.Supported →
    Yields (exec .none s) s 0#s.cfg.w ∧ YieldsBits (exec .none s) s fun _ => False) ∧
  (∀ s : State, s.cfg.w = 8 → s.cmd = 0x1000 → Yields (step s) s (BitVec.ofNat s.cfg.w 0x00))

/-- R55: `msb`. -/
def Obligations.MsbSetsTheHighestBitOnly : Prop :=
  (∀ (has : Bool) (cmd : CmdWord), opField cmd = 0x2 → decode has cmd = .instr .msb) ∧
  (∀ s : State, s.cfg.Supported →
    Yields (exec .msb s) s (1#s.cfg.w <<< (s.cfg.w - 1)) ∧ YieldsBits (exec .msb s) s fun k => k = s.cfg.w - 1) ∧
  (∀ s : State, s.cfg.w = 8 → s.cmd = 0x2000 → Yields (step s) s (BitVec.ofNat s.cfg.w 0x80)) ∧
  (∀ s : State, s.cfg.w = 64 → s.cmd = 0x2000 → Yields (step s) s (BitVec.ofNat s.cfg.w 0x8000000000000000))

/-- R56: `but_msb`. -/
def Obligations.ButMsbClearsTheHighestBitOnly : Prop :=
  (∀ (has : Bool) (cmd : CmdWord), opField cmd = 0x3 → decode has cmd = .instr .butMsb) ∧
  (∀ s : State, s.cfg.Supported →
    Yields (exec .butMsb s) s (~~~ (1#s.cfg.w <<< (s.cfg.w - 1))) ∧
    YieldsBits (exec .butMsb s) s fun k => k ≠ s.cfg.w - 1) ∧
  (∀ s : State, s.cfg.w = 8 → s.cmd = 0x3000 → Yields (step s) s (BitVec.ofNat s.cfg.w 0x7F))

/-- R57: `lsb`. -/
def Obligations.LsbSetsTheLowestBitOnly : Prop :=
  (∀ (has : Bool) (cmd : CmdWord), opField cmd = 0x4 → decode has cmd = .instr .lsb) ∧
  (∀ s : State, s.cfg.Supported →
    Yields (exec .lsb s) s 1#s.cfg.w ∧ YieldsBits (exec .lsb s) s fun k => k = 0) ∧
  (∀ s : State, s.cfg.w = 8 → s.cmd = 0x4000 → Yields (step s) s (BitVec.ofNat s.cfg.w 0x01))

/-- R58: `but_lsb`. -/
def Obligations.ButLsbClearsTheLowestBitOnly : Prop :=
  (∀ (has : Bool) (cmd : CmdWord), opField cmd = 0x5 → decode has cmd = .instr .butLsb) ∧
  (∀ s : State, s.cfg.Supported →
    Yields (exec .butLsb s) s (~~~ 1#s.cfg.w) ∧ YieldsBits (exec .butLsb s) s fun k => k ≠ 0) ∧
  (∀ s : State, s.cfg.w = 8 → s.cmd = 0x5000 → Yields (step s) s (BitVec.ofNat s.cfg.w 0xFE))

/-- R59: the laws of the primitive masks, for every supported W. -/
def Obligations.PrimitiveMaskLaws : Prop :=
  ∀ s : State, s.cfg.Supported → ∃ all none msb butMsb lsb butLsb : Mask s.cfg.w,
    Yields (exec .all s) s all ∧ Yields (exec .none s) s none ∧
    Yields (exec .msb s) s msb ∧ Yields (exec .butMsb s) s butMsb ∧
    Yields (exec .lsb s) s lsb ∧ Yields (exec .butLsb s) s butLsb ∧
    all ^^^ none = all ∧ msb ||| butMsb = all ∧ msb &&& butMsb = none ∧
    lsb ||| butLsb = all ∧ lsb &&& butLsb = none

/-- R60: for OP 0x0 to 0x5 the outcome is a mask, whatever A and B hold. -/
def Obligations.PrimitiveMasksAreNeverRejected : Prop :=
  ∀ s : State, s.cfg.Supported → (opField s.cmd).toNat ≤ 0x5 → ∃ m, Yields (step s) s m

/-! ## Single-bit selectors -/

/-- R61: `bit n`. -/
def Obligations.BitSetsOnePosition : Prop :=
  (∀ (has : Bool) (cmd : CmdWord), opField cmd = 0x6 → decode has cmd = .instr (.bit (fieldA cmd))) ∧
  (∀ (s : State) (n : Nat), s.cfg.Supported → n < s.cfg.w →
    Yields (exec (.bit n) s) s (1#s.cfg.w <<< n) ∧ YieldsBits (exec (.bit n) s) s fun k => k = n) ∧
  (∀ (s : State) (n : Nat), s.cfg.Supported → s.cfg.w ≤ n →
    Rejects (exec (.bit n) s) s (.rangeConstraintViolation (.aOutOfRange n)) ∧
    errCode (.rangeConstraintViolation (.aOutOfRange n)) = 0b001) ∧
  (∀ s : State, s.cfg.w = 8 → s.cmd = 0x6007 → Yields (step s) s (BitVec.ofNat s.cfg.w 0x80))

/-- R62: `but_bit n`. -/
def Obligations.ButBitClearsOnePosition : Prop :=
  (∀ (has : Bool) (cmd : CmdWord), opField cmd = 0x7 → decode has cmd = .instr (.butBit (fieldA cmd))) ∧
  (∀ (s : State) (n : Nat), s.cfg.Supported → n < s.cfg.w →
    Yields (exec (.butBit n) s) s (~~~ (1#s.cfg.w <<< n)) ∧ YieldsBits (exec (.butBit n) s) s fun k => k ≠ n) ∧
  (∀ (s : State) (n : Nat), s.cfg.Supported → s.cfg.w ≤ n →
    Rejects (exec (.butBit n) s) s (.rangeConstraintViolation (.aOutOfRange n)) ∧
    errCode (.rangeConstraintViolation (.aOutOfRange n)) = 0b001) ∧
  (∀ s : State, s.cfg.w = 8 → s.cmd = 0x7003 → Yields (step s) s (BitVec.ofNat s.cfg.w 0xF7))

/-- R63: the corner cases of `bit` and `but_bit`. -/
def Obligations.SelectorCornerCases : Prop :=
  (∀ s : State, s.cfg.Supported → ∃ lsb butLsb msb butMsb : Mask s.cfg.w,
    Yields (exec .lsb s) s lsb ∧ Yields (exec (.bit 0) s) s lsb ∧
    Yields (exec .butLsb s) s butLsb ∧ Yields (exec (.butBit 0) s) s butLsb ∧
    Yields (exec .msb s) s msb ∧ Yields (exec (.bit (s.cfg.w - 1)) s) s msb ∧
    Yields (exec .butMsb s) s butMsb ∧ Yields (exec (.butBit (s.cfg.w - 1)) s) s butMsb) ∧
  (∀ (s : State) (n : Nat), s.cfg.Supported → s.cfg.w ≤ n →
    Rejects (exec (.bit n) s) s (.rangeConstraintViolation (.aOutOfRange n)) ∧
    Rejects (exec (.butBit n) s) s (.rangeConstraintViolation (.aOutOfRange n)) ∧
    errCode (.rangeConstraintViolation (.aOutOfRange n)) = 0b001) ∧
  (∀ (s : State) (cmd cmd' : CmdWord), opField cmd = opField cmd' → fieldA cmd = fieldA cmd' →
    opField cmd = 0x6 ∨ opField cmd = 0x7 → SameOutcome s cmd cmd') ∧
  (∀ s : State, s.cfg.w = 64 → opField s.cmd = 0x6 ∨ opField s.cmd = 0x7 → ∃ m, Yields (step s) s m)

/-- R64: `bit n` has exactly one set bit, at position n; `but_bit n` is its complement, with W - 1 set bits. -/
def Obligations.SelectorPopcounts : Prop :=
  ∀ (s : State) (n : Nat), s.cfg.Supported → n < s.cfg.w → ∃ m : Mask s.cfg.w,
    Yields (exec (.bit n) s) s m ∧ popcount m = 1 ∧ m.getLsbD n = true ∧
    Yields (exec (.butBit n) s) s (~~~ m) ∧ popcount (~~~ m) = s.cfg.w - 1

/-! ## Range mask builders -/

/-- R66: `up_to n` is the source's iteration, n times from a one-bit value: `v 0, …, v n` are the values it goes
through. -/
def Obligations.UpToIteratesUpward : Prop :=
  (∀ (has : Bool) (cmd : CmdWord), opField cmd = 0x8 → decode has cmd = .instr (.upTo (fieldA cmd))) ∧
  (∀ (s : State) (n : Nat) (v : Nat → Mask s.cfg.w), s.cfg.Supported → n < s.cfg.w →
    v 0 = 1#s.cfg.w → (∀ k, v (k + 1) = v k ||| v k <<< 1) → Yields (exec (.upTo n) s) s (v n)) ∧
  (∀ (s : State) (n : Nat), s.cfg.Supported → s.cfg.w ≤ n →
    Rejects (exec (.upTo n) s) s (.rangeConstraintViolation (.aOutOfRange n)) ∧
    errCode (.rangeConstraintViolation (.aOutOfRange n)) = 0b001) ∧
  (∀ s : State, s.cfg.Supported → ∃ lsb all : Mask s.cfg.w, Yields (exec .lsb s) s lsb ∧ Yields (exec .all s) s all ∧
    Yields (exec (.upTo 0) s) s lsb ∧ Yields (exec (.upTo (s.cfg.w - 1)) s) s all) ∧
  (∀ s : State, s.cfg.w = 8 → s.cmd = 0x8003 → Yields (step s) s (BitVec.ofNat s.cfg.w 0x0F))

/-- R67: bit i of `up_to n` is 1 exactly when i ≤ n; after k iterations bits 0 to k are set and all others clear. -/
def Obligations.UpToClosedForm : Prop :=
  (∀ (s : State) (n : Nat), s.cfg.Supported → n < s.cfg.w → YieldsBits (exec (.upTo n) s) s fun i => i ≤ n) ∧
  (∀ (w : Nat) (v : Nat → Mask w), v 0 = 1#w → (∀ k, v (k + 1) = v k ||| v k <<< 1) →
    ∀ k i, k < w → i < w → ((v k).getLsbD i = true ↔ i ≤ k))

/-- R68: `up_to n` has n + 1 set bits, and `up_to (W-1)` is `all`. -/
def Obligations.UpToPopcount : Prop :=
  (∀ (s : State) (n : Nat), s.cfg.Supported → n < s.cfg.w → ∃ m : Mask s.cfg.w,
    Yields (exec (.upTo n) s) s m ∧ popcount m = n + 1) ∧
  (∀ s : State, s.cfg.Supported → ∃ m : Mask s.cfg.w,
    Yields (exec .all s) s m ∧ Yields (exec (.upTo (s.cfg.w - 1)) s) s m)

/-- R69, of `up_to` and `down_to`: whatever bit a shift of one position moves into the vacated place (`fill k` in iteration
k), their iterations give the same masks; and no shift of one position they make loses a set bit. -/
def Obligations.ShiftConventionNeverDecides : Prop :=
  (∀ (s : State) (n : Nat) (fill : Nat → Bool) (v : Nat → Mask s.cfg.w), s.cfg.Supported → n < s.cfg.w →
    v 0 = 1#s.cfg.w →
    (∀ k, v (k + 1) = v k ||| (v k <<< 1 ||| if fill k then 1#s.cfg.w else 0#s.cfg.w)) →
    Yields (exec (.upTo n) s) s (v n) ∧ ∀ k, k < n → (v k).getLsbD (s.cfg.w - 1) = false) ∧
  (∀ (s : State) (n : Nat) (fill : Nat → Bool) (v : Nat → Mask s.cfg.w), s.cfg.Supported → n < s.cfg.w →
    v 0 = 1#s.cfg.w <<< (s.cfg.w - 1) →
    (∀ k, v (k + 1) = v k ||| (v k >>> 1 ||| if fill k then 1#s.cfg.w <<< (s.cfg.w - 1) else 0#s.cfg.w)) →
    Yields (exec (.downTo n) s) s (v (s.cfg.w - 1 - n)) ∧
      ∀ k, k < s.cfg.w - 1 - n → (v k).getLsbD 0 = false)

/-- R70: `down_to n` is the source's mirrored iteration, W-1-n times from the highest bit. -/
def Obligations.DownToIteratesDownward : Prop :=
  (∀ (has : Bool) (cmd : CmdWord), opField cmd = 0x9 → decode has cmd = .instr (.downTo (fieldA cmd))) ∧
  (∀ (s : State) (n : Nat) (v : Nat → Mask s.cfg.w), s.cfg.Supported → n < s.cfg.w →
    v 0 = 1#s.cfg.w <<< (s.cfg.w - 1) → (∀ k, v (k + 1) = v k ||| v k >>> 1) →
    Yields (exec (.downTo n) s) s (v (s.cfg.w - 1 - n))) ∧
  (∀ (s : State) (n : Nat), s.cfg.Supported → s.cfg.w ≤ n →
    Rejects (exec (.downTo n) s) s (.rangeConstraintViolation (.aOutOfRange n)) ∧
    errCode (.rangeConstraintViolation (.aOutOfRange n)) = 0b001) ∧
  (∀ s : State, s.cfg.Supported → ∃ msb all : Mask s.cfg.w, Yields (exec .msb s) s msb ∧ Yields (exec .all s) s all ∧
    Yields (exec (.downTo (s.cfg.w - 1)) s) s msb ∧ Yields (exec (.downTo 0) s) s all) ∧
  (∀ s : State, s.cfg.w = 8 → s.cmd = 0x9005 → Yields (step s) s (BitVec.ofNat s.cfg.w 0xE0))

/-- R71: bit i of `down_to n` is 1 exactly when i ≥ n; after k iterations bits W-1-k to W-1 are set and all others
clear. -/
def Obligations.DownToClosedForm : Prop :=
  (∀ (s : State) (n : Nat), s.cfg.Supported → n < s.cfg.w → YieldsBits (exec (.downTo n) s) s fun i => n ≤ i) ∧
  (∀ (w : Nat) (v : Nat → Mask w), v 0 = 1#w <<< (w - 1) → (∀ k, v (k + 1) = v k ||| v k >>> 1) →
    ∀ k i, k < w → i < w → ((v k).getLsbD i = true ↔ w - 1 - k ≤ i))

/-- R72: `down_to n` has W - n set bits, and `down_to 0` is `all`. -/
def Obligations.DownToPopcount : Prop :=
  (∀ (s : State) (n : Nat), s.cfg.Supported → n < s.cfg.w → ∃ m : Mask s.cfg.w,
    Yields (exec (.downTo n) s) s m ∧ popcount m = s.cfg.w - n) ∧
  (∀ s : State, s.cfg.Supported → ∃ m : Mask s.cfg.w,
    Yields (exec .all s) s m ∧ Yields (exec (.downTo 0) s) s m)

/-- R73: `from_to n1, n2` is `up_to n2` AND `down_to n1`, bits n1 to n2 set and all others clear, after the checks in
their order. -/
def Obligations.FromToIntersectsTheBuilders : Prop :=
  (∀ (has : Bool) (cmd : CmdWord), opField cmd = 0xA → decode has cmd = .instr (.fromTo (fieldA cmd) (fieldB cmd))) ∧
  (∀ (s : State) (n1 n2 : Nat), s.cfg.Supported → n1 < n2 → n2 < s.cfg.w → ∃ up down : Mask s.cfg.w,
    Yields (exec (.upTo n2) s) s up ∧ Yields (exec (.downTo n1) s) s down ∧
    Yields (exec (.fromTo n1 n2) s) s (up &&& down) ∧
    ∀ i, i < s.cfg.w → ((up &&& down).getLsbD i = true ↔ n1 ≤ i ∧ i ≤ n2)) ∧
  (∀ (s : State) (n1 n2 : Nat), s.cfg.Supported → s.cfg.w ≤ n1 →
    Rejects (exec (.fromTo n1 n2) s) s (.rangeConstraintViolation (.aOutOfRange n1)) ∧
    errCode (.rangeConstraintViolation (.aOutOfRange n1)) = 0b001) ∧
  (∀ (s : State) (n1 n2 : Nat), s.cfg.Supported → n1 < s.cfg.w → s.cfg.w ≤ n2 →
    Rejects (exec (.fromTo n1 n2) s) s (.rangeConstraintViolation (.bOutOfRange n2)) ∧
    errCode (.rangeConstraintViolation (.bOutOfRange n2)) = 0b010) ∧
  (∀ (s : State) (n1 n2 : Nat), s.cfg.Supported → n1 < s.cfg.w → n2 < s.cfg.w → n2 ≤ n1 →
    Rejects (exec (.fromTo n1 n2) s) s (.rangeConstraintViolation (.notAscending n1 n2)) ∧
    errCode (.rangeConstraintViolation (.notAscending n1 n2)) = 0b011) ∧
  (∀ s : State, s.cfg.w = 8 → s.cmd = 0xA142 → Yields (step s) s (BitVec.ofNat s.cfg.w 0x3C))

/-- R74: bit i of `from_to n1, n2` is 1 exactly when n1 ≤ i ≤ n2, and it has n2 - n1 + 1 set bits. -/
def Obligations.FromToClosedForm : Prop :=
  ∀ (s : State) (n1 n2 : Nat), s.cfg.Supported → n1 < n2 → n2 < s.cfg.w → ∃ m up down : Mask s.cfg.w,
    Yields (exec (.fromTo n1 n2) s) s m ∧ (∀ i, i < s.cfg.w → (m.getLsbD i = true ↔ n1 ≤ i ∧ i ≤ n2)) ∧
    popcount m = n2 - n1 + 1 ∧
    Yields (exec (.upTo n2) s) s up ∧ Yields (exec (.downTo n1) s) s down ∧ m = up &&& down

/-- R75: the corner cases of `from_to`. -/
def Obligations.FromToCornerCases : Prop :=
  ∀ s : State, s.cfg.Supported →
    (∃ m, Yields (exec .all s) s m ∧ Yields (exec (.fromTo 0 (s.cfg.w - 1)) s) s m) ∧
    (∀ n2, 1 ≤ n2 → n2 < s.cfg.w → ∃ m, Yields (exec (.upTo n2) s) s m ∧ Yields (exec (.fromTo 0 n2) s) s m) ∧
    (∀ n1, n1 ≤ s.cfg.w - 2 →
      ∃ m, Yields (exec (.downTo n1) s) s m ∧ Yields (exec (.fromTo n1 (s.cfg.w - 1)) s) s m) ∧
    (∀ n, n + 1 < s.cfg.w → ∃ m, Yields (exec (.fromTo n (n + 1)) s) s m ∧ popcount m = 2) ∧
    (∀ n, n < s.cfg.w → Rejects (exec (.fromTo n n) s) s (.rangeConstraintViolation (.notAscending n n)) ∧
      errCode (.rangeConstraintViolation (.notAscending n n)) = 0b011 ∧
      ∃ up down, Yields (exec (.upTo n) s) s up ∧ Yields (exec (.downTo n) s) s down ∧
        Yields (exec (.bit n) s) s (up &&& down)) ∧
    (∀ n1 n2, n2 < n1 → n1 < s.cfg.w →
      Rejects (exec (.fromTo n1 n2) s) s (.rangeConstraintViolation (.notAscending n1 n2)))

/-- R76: `but_from_to n1, n2`, where the block has it, is the literal complement of `from_to n1, n2`, with its checks;
where the block does not have it, a step at its opcode is rejected as an illegal operation. -/
def Obligations.ButFromToComplementsFromTo : Prop :=
  (∀ cmd : CmdWord, opField cmd = 0xB → decode true cmd = .instr (.butFromTo (fieldA cmd) (fieldB cmd))) ∧
  (∀ cmd : CmdWord, opField cmd = 0xB → decode false cmd = .illegal 0xB) ∧
  (∀ s : State, s.cfg.Supported → s.cfg.hasButFromTo = false → opField s.cmd = 0xB →
    Rejects (step s) s (.illegalOperation 0xB)) ∧
  (∀ (s : State) (n1 n2 : Nat), s.cfg.Supported → s.cfg.hasButFromTo = true → n1 < n2 → n2 < s.cfg.w →
    ∃ m : Mask s.cfg.w, Yields (exec (.fromTo n1 n2) s) s m ∧ Yields (exec (.butFromTo n1 n2) s) s (~~~ m) ∧
      ∀ i, i < s.cfg.w → ((~~~ m).getLsbD i = true ↔ i < n1 ∨ n2 < i)) ∧
  (∀ (s : State) (n1 n2 : Nat) (r : Rejection), s.cfg.Supported → s.cfg.hasButFromTo = true →
    (Rejects (exec (.butFromTo n1 n2) s) s r ↔ Rejects (exec (.fromTo n1 n2) s) s r)) ∧
  (∀ s : State, s.cfg.Supported → s.cfg.hasButFromTo = true →
    ∃ m, Yields (exec .none s) s m ∧ Yields (exec (.butFromTo 0 (s.cfg.w - 1)) s) s m) ∧
  (∀ (s : State) (n : Nat), s.cfg.Supported → s.cfg.hasButFromTo = true → n < s.cfg.w →
    Rejects (exec (.butFromTo n n) s) s (.rangeConstraintViolation (.notAscending n n))) ∧
  (∀ s : State, s.cfg.w = 8 → s.cfg.hasButFromTo = true → s.cmd = 0xB142 →
    Yields (step s) s (BitVec.ofNat s.cfg.w 0xC3))

/-- R77: `from_to` and `but_from_to` of one valid range are complementary. -/
def Obligations.ButFromToLaws : Prop :=
  ∀ (s : State) (n1 n2 : Nat), s.cfg.Supported → s.cfg.hasButFromTo = true → n1 < n2 → n2 < s.cfg.w →
    ∃ all none m c : Mask s.cfg.w, Yields (exec .all s) s all ∧ Yields (exec .none s) s none ∧
      Yields (exec (.fromTo n1 n2) s) s m ∧ Yields (exec (.butFromTo n1 n2) s) s c ∧
      m ||| c = all ∧ m &&& c = none ∧ popcount c = s.cfg.w - (n2 - n1 + 1)

/-- R80: the equalities between operations, for every supported W. -/
def Obligations.OperationEqualities : Prop :=
  ∀ s : State, s.cfg.Supported → ∃ (all lsb msb : Mask s.cfg.w) (bit up down : Nat → Mask s.cfg.w),
    Yields (exec .all s) s all ∧ Yields (exec .lsb s) s lsb ∧ Yields (exec .msb s) s msb ∧
    (∀ n, n < s.cfg.w → Yields (exec (.bit n) s) s (bit n) ∧ Yields (exec (.upTo n) s) s (up n) ∧
      Yields (exec (.downTo n) s) s (down n)) ∧
    up 0 = lsb ∧ down (s.cfg.w - 1) = msb ∧ up (s.cfg.w - 1) = all ∧ down 0 = all ∧ bit (s.cfg.w - 1) = msb ∧
    (∀ n, n < s.cfg.w → up n &&& down n = bit n ∧ up n ||| down n = all) ∧
    (∀ n, n < s.cfg.w - 1 → up n ^^^ down (n + 1) = all)

/-! ## Rejections and configuration -/

/-- R82: the rejection reasons, their codes and their causes: a command that the block has is rejected for a reason exactly
when it meets the reason's cause, a word of an illegal operation is rejected for it, and the codes 101 to 111 are no reason's. -/
def Obligations.RejectionReasonsCodesAndCauses : Prop :=
  (∀ (s : State) (i : Instr) (r : Rejection), s.cfg.Supported → i.available s.cfg.hasButFromTo = true →
    (Rejects (exec i s) s r ↔ RejectedFor s.cfg i r)) ∧
  (∀ (s : State) (op : OpField), s.cfg.Supported → (Rejects (step s) s (.illegalOperation op) ↔
    opField s.cmd = op ∧ (0xC ≤ op.toNat ∨ (op = 0xB ∧ s.cfg.hasButFromTo = false)))) ∧
  (∀ (s t : State), step s = .next t → t.err = 0b000) ∧
  (∀ a, errCode (.rangeConstraintViolation (.aOutOfRange a)) = 0b001) ∧
  (∀ b, errCode (.rangeConstraintViolation (.bOutOfRange b)) = 0b010) ∧
  (∀ a b, errCode (.rangeConstraintViolation (.notAscending a b)) = 0b011) ∧
  (∀ op, errCode (.illegalOperation op) = 0b100) ∧
  (∀ s : State, step s = .refused (.typeConstraintViolation s.cfg.w) ↔
    ¬ (s.cfg.w = 8 ∨ s.cfg.w = 16 ∨ s.cfg.w = 32 ∨ s.cfg.w = 64))

/-- R83: no step is defined for a configuration whose W is not 8, 16, 32 or 64, whatever the command; and no command is
refused in any other configuration. -/
def Obligations.UnsupportedWidthHasNoStep : Prop :=
  (∀ s : State, ¬ s.cfg.Supported → step s = .refused (.typeConstraintViolation s.cfg.w) ∧
    ∀ i, exec i s = .refused (.typeConstraintViolation s.cfg.w)) ∧
  (∀ (s : State) (ρ : Refusal), s.cfg.Supported → step s ≠ .refused ρ ∧ ∀ i, exec i s ≠ .refused ρ)

/-- R86: one command reports exactly one reason, the first that applies in the order illegal operation, A out of range, B
out of range, not ascending. -/
def Obligations.RejectionPriority : Prop :=
  (∀ (s : State) (r r' : Rejection), Rejects (step s) s r → Rejects (step s) s r' → r = r') ∧
  (∀ s : State, s.cfg.Supported →
    0xC ≤ (opField s.cmd).toNat ∨ (opField s.cmd = 0xB ∧ s.cfg.hasButFromTo = false) →
    Rejects (step s) s (.illegalOperation (opField s.cmd))) ∧
  (∀ (s : State) (i : Instr) (n1 n2 : Nat), s.cfg.Supported →
    i = .fromTo n1 n2 ∨ (i = .butFromTo n1 n2 ∧ s.cfg.hasButFromTo = true) →
    (s.cfg.w ≤ n1 → Rejects (exec i s) s (.rangeConstraintViolation (.aOutOfRange n1))) ∧
    (n1 < s.cfg.w → s.cfg.w ≤ n2 → Rejects (exec i s) s (.rangeConstraintViolation (.bOutOfRange n2))) ∧
    (n1 < s.cfg.w → n2 < s.cfg.w → n2 ≤ n1 →
      Rejects (exec i s) s (.rangeConstraintViolation (.notAscending n1 n2)))) ∧
  (∀ s : State, s.cfg.w = 8 → Rejects (exec (.fromTo 9 3) s) s (.rangeConstraintViolation (.aOutOfRange 9)) ∧
    Rejects (exec (.fromTo 5 9) s) s (.rangeConstraintViolation (.bOutOfRange 9)))

/-- THE MODEL'S CHOICE (log 11, DEDUCED from R45, R47 and R76): the spec has decoding reject `but_from_to` where the block
does not have it, and no step reaches its meaning there; that meaning, taken alone, rejects for the same reason and no
other, whatever the positions. -/
def Obligations.AbsentButFromToMeaningRejects : Prop :=
  ∀ (s : State) (n1 n2 : Nat) (r : Rejection), s.cfg.Supported → s.cfg.hasButFromTo = false →
    (Rejects (exec (.butFromTo n1 n2) s) s r ↔ r = .illegalOperation 0xB)

/-- R82, R84, R85, R88: a command yields a mask exactly when it is legal; otherwise its meaning is a fault that records a
reason and the command word, and no mask. The case of `but_from_to` in a block that does not have it is the model's choice
(log 11; R47 has decoding reject it). -/
def Obligations.MaskExactlyWhenLegal : Prop :=
  ∀ (s : State) (i : Instr), s.cfg.Supported →
    ((∃ t, exec i s = .next t) ↔ Legal s.cfg i) ∧
    (¬ Legal s.cfg i → ∃ r, Rejects (exec i s) s r ∧ RejectedFor s.cfg i r)

/-! ## The machine as a whole -/

/-- R12, R26: one step is the one total function `Gen` of the decoded command, and the parameters are its parameters. -/
def Obligations.StepIsGen : Prop :=
  ∀ (s : State) (h : s.cfg.Supported), step s =
    match generate s.cfg (Config.two_le_of_supported h) s.cmd with
    | .ok m => .next { s with mask := m, err := 0b000 }
    | .reject r => .fault (.rejected r s.cmd)

/-- R67, R71, R74, R78, R82: every operation, computed by iteration and composition, gives the mask of its closed form,
bit by bit, whenever it is legal, and is otherwise rejected for the cause it meets; and so does a step. The case of the
meaning of `but_from_to` in a block that does not have it is the model's choice (log 11; R47 has decoding reject it). -/
def Obligations.EveryCommandMeetsItsClosedForm : Prop :=
  (∀ (s : State) (i : Instr), s.cfg.Supported →
    (Legal s.cfg i → YieldsBits (exec i s) s fun k => selects s.cfg.w i k = true) ∧
    (¬ Legal s.cfg i → ∃ r, RejectedFor s.cfg i r ∧ Rejects (exec i s) s r)) ∧
  (∀ (s : State) (i : Instr), s.cfg.Supported → decode s.cfg.hasButFromTo s.cmd = .instr i → Legal s.cfg i →
    YieldsBits (step s) s fun k => selects s.cfg.w i k = true)

/-- R17, R23: no command changes the parameters or the command input; it writes the outputs only. -/
def Obligations.OnlyOutputsAreWritten : Prop :=
  (∀ (i : Instr) (s t : State), exec i s = .next t → t.cfg = s.cfg ∧ t.cmd = s.cmd ∧ t.err = 0b000) ∧
  (∀ s t : State, step s = .next t → t.cfg = s.cfg ∧ t.cmd = s.cmd ∧ t.err = 0b000)

/-- R22: the outcome depends on the command and the parameters only, never on what stood on the outputs before. -/
def Obligations.OutcomeIgnoresEarlierOutputs : Prop :=
  (∀ (s : State) (m : Mask s.cfg.w) (e : ErrCode), step { s with mask := m, err := e } = step s) ∧
  (∀ (i : Instr) (s : State) (m : Mask s.cfg.w) (e : ErrCode), exec i { s with mask := m, err := e } = exec i s)

/-- R32: evaluating the same command again gives the same outputs. -/
def Obligations.EvaluationIsIdempotent : Prop :=
  ∀ s t : State, step s = .next t → step t = .next t

/-- R24: with `cmd` tied, every number of evaluations has the outcome of one. -/
def Obligations.TiedCommandIsConstant : Prop :=
  ∀ (s : State) (k : Nat), Sys2Proof.core.run (k + 1) s = step s

/-- R91: the next command is evaluated with no memory of an earlier one, rejected or not: whatever `draw` stood on `mask`
after it. -/
def Obligations.RejectionLeavesNoTrace : Prop :=
  (∀ (s : State) (before cmd : CmdWord) (draw : Nat),
    driveCommand (afterCommand s before draw) cmd = driveCommand s cmd) ∧
  (∀ (s : State) (before cmd : CmdWord) (draw : Nat) (r : Rejection) (m : Mask s.cfg.w),
    Rejects (driveCommand s before) (s.present before) r → Yields (driveCommand s cmd) (s.present cmd) m →
    Yields (driveCommand (afterCommand s before draw) cmd) (s.present cmd) m)

/-- R100: in any sequence of commands, each has its own outcome, the one it has when it is driven alone. -/
def Obligations.EachCommandHasItsOwnOutcome : Prop :=
  ∀ (s : State) (cmds : List CmdWord), runCommands s cmds = cmds.map (driveCommand s)

/-- R21, R103: after every step that answers a next state, the outputs are settled and belong to the command on `cmd`, in
closed form; so the invariant `Settled` is kept by every step, and established by it. -/
def Obligations.StepAnswersSettledState : Prop :=
  ∀ s t : State, step s = .next t → Settled t

/-- R97 for the model's own reset state: its W = 64 and its `cmd = 0x0000` are choices of the model (log 3), its
`HAS_BUT_FROM_TO = true` is the default of R6, and its outputs are those R21 gives that command. -/
def Obligations.ResetStateIsSettled : Prop :=
  Settled State.reset

/-! ## The ports and the text -/

/-- R21: the settled outputs are the port view of the outcome: of a mask, that mask and `err = 0`; of a rejection, its
code. -/
def Obligations.PortsShowTheOutcome : Prop :=
  ∀ (s : State) (h : s.cfg.Supported) (draw : Nat),
    (∀ m : Mask s.cfg.w, Yields (step s) s m → s.ports h draw = { mask := m, err := 0b000 }) ∧
    (∀ r, Rejects (step s) s r → (s.ports h draw).err = errCode r)

/-- R21, R82 and I4 of 93_implementation_defined.md: a consumer of settled outputs reads the mask of an accepted command,
the code of a rejected one, and never a code that is not driven. -/
def Obligations.SettledPortsReadAsTheOutcome : Prop :=
  ∀ (s : State) (h : s.cfg.Supported) (draw : Nat),
    (∀ m : Mask s.cfg.w, Yields (step s) s m ↔ readPorts (s.ports h draw) = .mask m) ∧
    (∀ r, Rejects (step s) s r → readPorts (s.ports h draw) = .rejection (errCode r)) ∧
    (∀ code, readPorts (s.ports h draw) ≠ .neverDriven code)

/-- R101, R102: under the premise `SampledSettled`, outputs sampled after a change of `cmd` are the settled ones, so an
accepted command shows its mask. -/
def Obligations.SamplingAfterSettlingIsExact : Prop :=
  ∀ (s : State) (h : s.cfg.Supported) (elapsed draw : Nat) (m : Mask s.cfg.w), SampledSettled s.cfg elapsed →
    Yields (step s) s m → s.sampledPorts h elapsed draw = { mask := m, err := 0b000 }

/-- R50: the assembler's encoding: the formula, the operands an operation does not take at 0, the line of a command with an
operand outside 0 to 63 (any natural number, in decimal) rejected, so that it has no word and no program holds it, an
operand of W or more encoded and left to the block to reject, and decoding gives the command back. -/
def Obligations.AssemblerEncodesByFormula : Prop :=
  (∀ i : Instr, i.wellFormed = true →
    encodeChecked i = some (encode i) ∧ (AsmLine.command i).encoded = some (encode i) ∧
    (encode i).toNat = i.opcode * 4096 + i.operandB * 64 + i.operandA ∧ decode true (encode i) = .instr i) ∧
  (∀ i : Instr, (i.wellFormed = true ↔ i.operandA ≤ 63 ∧ i.operandB ≤ 63) ∧
    (i.wellFormed = false → encodeChecked i = none)) ∧
  (∀ i : Instr, i.wellFormed = false → assembleLine (commandText i) = .operandTooWide ∧
    (assembleLine (commandText i)).encoded = none ∧
    ∀ (p : Program) (lines : List Text), p.addText (commandText i :: lines) = none) ∧
  (∀ (s : State) (i : Instr), s.cfg.Supported → i.wellFormed = true →
    s.cfg.w ≤ i.operandA ∨ s.cfg.w ≤ i.operandB → s.cmd = encode i → ∃ r, Rejects (step s) s r)

/-- R50 over every line, with the model's reading of a line (log 8, DESIGN CHOICE): a line whose first word is the mnemonic
of a command and whose operands are that command's is rejected when one of them is outside 0 to 63; it has no word, and no
program holds it. -/
def Obligations.LineWithWideOperandIsRejected : Prop :=
  (∀ (i : Instr) (rest : Text) (operands : List Nat), numbers? (operandTexts rest) = some operands →
    namedCommand? (mnemonicText i) operands = some i → i.wellFormed = false →
    assembleWords (mnemonicText i) rest = .operandTooWide) ∧
  (∀ (i : Instr) (line : Text) (operands : List Nat),
    (trim (dropComment line)).takeWhile (fun c => !isBlank c) = mnemonicText i →
    numbers? (operandTexts (trim ((trim (dropComment line)).dropWhile fun c => !isBlank c))) = some operands →
    namedCommand? (mnemonicText i) operands = some i → i.wellFormed = false →
    assembleLine line = .operandTooWide ∧ (assembleLine line).encoded = none ∧
    ∀ (p : Program) (lines : List Text), p.addText (line :: lines) = none)

/-- R49, R52: the disassembler prints the mnemonic and, in decimal, the operands the command takes and nothing else; two
words that differ in ignored fields only print the same; and the text printed for a word is a line the assembler reads
as the command (how a line is cut into words is log 8). -/
def Obligations.PrintedCommandIsReadBack : Prop :=
  (∀ (has : Bool) (cmd : CmdWord) (i : Instr), decode has cmd = .instr i →
    disassemble has cmd = i.mnemonic.toList ++
      match i with
      | .all | .none | .msb | .butMsb | .lsb | .butLsb => []
      | .bit n | .butBit n | .upTo n | .downTo n => ' ' :: Nat.toDigits 10 n
      | .fromTo n1 n2 | .butFromTo n1 n2 => ' ' :: (Nat.toDigits 10 n1 ++ [',', ' '] ++ Nat.toDigits 10 n2)) ∧
  (∀ (has : Bool) (cmd cmd' : CmdWord) (i : Instr), decode has cmd = .instr i →
    cmd &&& i.usedBits = cmd' &&& i.usedBits → disassemble has cmd = disassemble has cmd') ∧
  (∀ (has : Bool) (cmd : CmdWord) (i : Instr), decode has cmd = .instr i →
    assembleLine (disassemble has cmd) = .command i)

/-- R52, and log 8 and log 9 for reading it back: a word of a reserved operation prints as `.illegal 0xHHHH`, which the assembler
reads as the whole word. -/
def Obligations.PrintedReservedWordIsReadBack : Prop :=
  ∀ (has : Bool) (cmd : CmdWord) (op : OpField), decode has cmd = .illegal op →
    assembleLine (disassemble has cmd) = .word cmd

/-- R49: a `.but_from_to` directive does not change how a line is encoded: `but_from_to` is encoded under
`.but_from_to off` too, and a block without the operation rejects it. The texts are read by the model's rules (log 8,
DESIGN CHOICE): a program is a list of lines, blanks separate words, and a directive may be followed by a comment. -/
def Obligations.DirectiveDoesNotChangeEncoding : Prop :=
  (∀ i : Instr, i.wellFormed = true →
    assemble [".but_from_to off".toList, commandText i] =
      some { width := none, butFromTo := some false, words := [encode i] } ∧
    assemble [".but_from_to on; a comment".toList, commandText i] =
      some { width := none, butFromTo := some true, words := [encode i] }) ∧
  (∀ (s : State) (n1 n2 : Nat), s.cfg.Supported → s.cfg.hasButFromTo = false → n1 ≤ 63 → n2 ≤ 63 →
    s.cmd = encode (.butFromTo n1 n2) → Rejects (step s) s (.illegalOperation 0xB))
end

