-- ==== Sys2Proof/Laws/Decode.lean ====
section
/-! SUPPORT. The fields of a command word, read as numbers, and the fields of an encoded word. -/

namespace Sys2Proof

theorem opField_toNat (cmd : CmdWord) : (opField cmd).toNat = cmd.toNat / 4096 := by
  simp only [opField, BitVec.extractLsb'_toNat, Nat.shiftRight_eq_div_pow]
  have := cmd.isLt
  omega

theorem fieldA_eq (cmd : CmdWord) : fieldA cmd = cmd.toNat % 64 := by
  simp [fieldA, positionWidth, BitVec.extractLsb'_toNat]

theorem fieldB_eq (cmd : CmdWord) : fieldB cmd = cmd.toNat / 64 % 64 := by
  simp [fieldB, positionWidth, BitVec.extractLsb'_toNat, Nat.shiftRight_eq_div_pow]

theorem fieldA_lt (cmd : CmdWord) : fieldA cmd < 64 := by
  rw [fieldA_eq]
  omega

theorem fieldB_lt (cmd : CmdWord) : fieldB cmd < 64 := by
  rw [fieldB_eq]
  omega

/-- The fields of the word with the number `wordNumber op b a`. -/
theorem fields_of_wordNumber {op b a : Nat} (hop : op < 16) (hb : b < 64) (ha : a < 64) :
    (opField (BitVec.ofNat 16 (wordNumber op b a))).toNat = op ∧
    fieldB (BitVec.ofNat 16 (wordNumber op b a)) = b ∧ fieldA (BitVec.ofNat 16 (wordNumber op b a)) = a := by
  rw [opField_toNat, fieldA_eq, fieldB_eq, BitVec.toNat_ofNat, wordNumber]
  omega

theorem fitsField_iff (n : Nat) : fitsField n = true ↔ n < 64 :=
  decide_eq_true_iff (p := n < 2 ^ positionWidth)

end Sys2Proof
end

