-- ==== Sys2Proof/Laws/Operands.lean ====
section
/-! SUPPORT. What the two checks of R84 do. -/

namespace Sys2Proof.Machine

theorem checkPos_below {w n : Nat} (h : n < w) (rest : n < w → GenOutcome w) : checkPos w n rest = rest h := dif_pos h

theorem checkPos_above {w n : Nat} (h : w ≤ n) (rest : n < w → GenOutcome w) :
    checkPos w n rest = .reject (.rangeConstraintViolation (.aOutOfRange n)) := dif_neg (by omega)

theorem checkRange_legal {w n1 n2 : Nat} (h : n1 < n2) (h2 : n2 < w)
    (rest : n1 < w → n2 < w → n1 < n2 → GenOutcome w) :
    checkRange w n1 n2 rest = rest (by omega) h2 h := by
  simp [checkRange, h, h2, show n1 < w by omega]

theorem checkRange_lowEnd {w n1 n2 : Nat} (h : w ≤ n1) (rest : n1 < w → n2 < w → n1 < n2 → GenOutcome w) :
    checkRange w n1 n2 rest = .reject (.rangeConstraintViolation (.aOutOfRange n1)) := dif_neg (by omega)

theorem checkRange_highEnd {w n1 n2 : Nat} (h1 : n1 < w) (h2 : w ≤ n2)
    (rest : n1 < w → n2 < w → n1 < n2 → GenOutcome w) :
    checkRange w n1 n2 rest = .reject (.rangeConstraintViolation (.bOutOfRange n2)) := by
  simp [checkRange, h1, show ¬ n2 < w by omega]

theorem checkRange_order {w n1 n2 : Nat} (h1 : n1 < w) (h2 : n2 < w) (h : n2 ≤ n1)
    (rest : n1 < w → n2 < w → n1 < n2 → GenOutcome w) :
    checkRange w n1 n2 rest = .reject (.rangeConstraintViolation (.notAscending n1 n2)) := by
  simp [checkRange, h1, h2, show ¬ n1 < n2 by omega]

end Sys2Proof.Machine
end

