-- ==== Sys2Proof/Laws/State.lean ====
section
/-! SUPPORT. What each update of State leaves and writes, one lemma per field. -/

namespace Sys2Proof.Machine

@[simp] theorem State.answer_cfg (s : State) (m : Mask s.cfg.w) : (s.answer m).cfg = s.cfg := rfl

@[simp] theorem State.answer_cmd (s : State) (m : Mask s.cfg.w) : (s.answer m).cmd = s.cmd := rfl

@[simp] theorem State.answer_mask (s : State) (m : Mask s.cfg.w) : (s.answer m).mask = m := rfl

@[simp] theorem State.answer_err (s : State) (m : Mask s.cfg.w) : (s.answer m).err = 0b000 := rfl

@[simp] theorem State.present_cfg (s : State) (cmd : CmdWord) : (s.present cmd).cfg = s.cfg := rfl

@[simp] theorem State.present_cmd (s : State) (cmd : CmdWord) : (s.present cmd).cmd = cmd := rfl

@[simp] theorem State.present_mask (s : State) (cmd : CmdWord) : (s.present cmd).mask = s.mask := rfl

@[simp] theorem State.present_err (s : State) (cmd : CmdWord) : (s.present cmd).err = s.err := rfl

@[simp] theorem State.command_eq (s : State) : s.command = s.cmd := rfl

end Sys2Proof.Machine
end

