-- ==== Sys2Proof/Laws/Ops.lean ====
section
/-! SUPPORT. What the shared operations do, said once each: shifts, the iterations, popcount, and the ways an evaluation
can end. -/

namespace Sys2Proof.Machine

@[simp] theorem shl_eq {w : Nat} (v : Mask w) (k : Nat) (below : k < w) : shl v k below = v <<< k := rfl

@[simp] theorem shr_eq {w : Nat} (v : Mask w) (k : Nat) (below : k < w) : shr v k below = v >>> k := rfl

@[simp] theorem zeroMask_eq (w : Nat) : zeroMask w = 0#w := rfl

@[simp] theorem oneMask_eq (w : Nat) : oneMask w = 1#w := rfl

@[simp] theorem topMask_eq {w : Nat} (hw : 2 ≤ w) : topMask hw = 1#w <<< (w - 1) := rfl

@[simp] theorem extendUp_eq {w : Nat} (hw : 2 ≤ w) (v : Mask w) : extendUp hw v = v ||| v <<< 1 := rfl

@[simp] theorem extendDown_eq {w : Nat} (hw : 2 ≤ w) (v : Mask w) : extendDown hw v = v ||| v >>> 1 := rfl

@[simp] theorem repeatTimes_zero {α : Type} (body : α → α) (v : α) : repeatTimes body 0 v = v := rfl

/-- The last iteration can be split off as well as the first. -/
theorem repeatTimes_succ {α : Type} (body : α → α) (m : Nat) (v : α) :
    repeatTimes body (m + 1) v = body (repeatTimes body m v) := by
  induction m generalizing v with
  | zero => rfl
  | succ m ih => exact ih (body v)

/-- A sequence that starts at `v` and follows `body` is the repetition of `body`. -/
theorem eq_repeatTimes {α : Type} (body : α → α) (v : Nat → α) (next : ∀ k, v (k + 1) = body (v k)) (m : Nat) :
    v m = repeatTimes body m (v 0) := by
  induction m with
  | zero => rfl
  | succ m ih => rw [repeatTimes_succ, next, ih]

/-- Bits of a one-bit value moved to position `n`. -/
theorem getLsbD_one_shiftLeft {w n k : Nat} (hn : n < w) : (1#w <<< n).getLsbD k = decide (k = n) := by
  rcases Nat.lt_trichotomy k n with h | h | h
  · simp [h, show k ≠ n by omega]
  · subst h
    simp [hn]
  · simp [show k ≠ n by omega, show ¬ k < n by omega, show k - n ≠ 0 by omega]

/-- After `k` iterations of `up_to`, bits 0 to k are set and all others clear. -/
theorem getLsbD_repeat_extendUp {w : Nat} (hw : 2 ≤ w) {k : Nat} (hk : k < w) (i : Nat) :
    (repeatTimes (extendUp hw) k 1#w).getLsbD i = decide (i ≤ k) := by
  induction k generalizing i with
  | zero => simp [show 0 < w by omega]
  | succ k ih =>
    have ih := ih (by omega)
    rw [repeatTimes_succ, extendUp_eq, BitVec.getLsbD_or, BitVec.getLsbD_shiftLeft, ih, ih]
    by_cases h : i ≤ k + 1
    · by_cases h' : i ≤ k
      · simp [h, h']
      · simp [h, h']
        omega
    · simp [h]
      omega

/-- After `k` iterations of `down_to`, bits w-1-k to w-1 are set and all others clear. -/
theorem getLsbD_repeat_extendDown {w : Nat} (hw : 2 ≤ w) {k : Nat} (hk : k < w) (i : Nat) :
    (repeatTimes (extendDown hw) k (1#w <<< (w - 1))).getLsbD i = decide (w - 1 - k ≤ i ∧ i < w) := by
  induction k generalizing i with
  | zero =>
    rw [repeatTimes_zero, getLsbD_one_shiftLeft (by omega)]
    exact decide_eq_decide.mpr (by omega)
  | succ k ih =>
    have ih := ih (by omega)
    rw [repeatTimes_succ, extendDown_eq, BitVec.getLsbD_or, BitVec.getLsbD_ushiftRight, ih, ih, ← Bool.decide_or]
    exact decide_eq_decide.mpr (by omega)

/-- What `UpToVal` computes. -/
theorem getLsbD_upToVal {w : Nat} (hw : 2 ≤ w) {n : Nat} (hn : n < w) (i : Nat) :
    (upToVal hw n).getLsbD i = decide (i ≤ n) :=
  getLsbD_repeat_extendUp hw hn i

/-- What `DownToVal` computes. -/
theorem getLsbD_downToVal {w : Nat} (hw : 2 ≤ w) {n : Nat} (hn : n < w) (i : Nat) :
    (downToVal hw n).getLsbD i = decide (n ≤ i ∧ i < w) := by
  unfold downToVal
  rw [topMask_eq, getLsbD_repeat_extendDown hw (by omega)]
  exact decide_eq_decide.mpr (by omega)

/-- The population count of a mask whose set bits are those `p` holds of. -/
theorem popcount_eq_countP {w : Nat} (v : Mask w) (p : Nat → Bool) (h : ∀ k, k < w → v.getLsbD k = p k) :
    popcount v = (List.range w).countP p :=
  List.countP_congr fun k hk => by rw [h k (List.mem_range.mp hk)]

/-- How many numbers below `w` lie in the range `[a, b]`. -/
theorem countP_range_interval (w a b : Nat) (hab : a ≤ b) (hb : b < w) :
    (List.range w).countP (fun k => decide (a ≤ k ∧ k ≤ b)) = b - a + 1 := by
  have count (n : Nat) : (List.range n).countP (fun k => decide (a ≤ k ∧ k ≤ b)) = min n (b + 1) - min n a := by
    induction n with
    | zero => simp
    | succ n ih =>
      rw [List.range_succ, List.countP_append, ih, List.countP_singleton]
      by_cases h : a ≤ n ∧ n ≤ b <;> simp [h] <;> omega
  rw [count]
  omega

/-- The population count of a complement. -/
theorem popcount_not {w : Nat} (v : Mask w) : popcount (~~~ v) = w - popcount v := by
  have total := List.length_eq_countP_add_countP (fun k => v.getLsbD k) (l := List.range w)
  have flip : popcount (~~~ v) = (List.range w).countP (fun k => decide ¬ v.getLsbD k = true) :=
    popcount_eq_countP _ _ fun k hk => by simp [hk]
  simp only [List.length_range] at total
  rw [flip, popcount]
  omega

/-! ### The ways an evaluation ends -/

@[simp] theorem report_ok (s : State) (m : Mask s.cfg.w) : report s (.ok m) = .next { s with mask := m, err := 0b000 } := rfl

@[simp] theorem report_reject (s : State) (r : Rejection) : report s (.reject r) = .fault (.rejected r s.cmd) := rfl

theorem evaluate_supported {s : State} (h : s.cfg.Supported) (g : 2 ≤ s.cfg.w → GenOutcome s.cfg.w) :
    evaluate s g = report s (g (Config.two_le_of_supported h)) := dif_pos h

theorem evaluate_unsupported {s : State} (h : ¬ s.cfg.Supported) (g : 2 ≤ s.cfg.w → GenOutcome s.cfg.w) :
    evaluate s g = .refused (.typeConstraintViolation s.cfg.w) := dif_neg h

/-- Everything an evaluation can do: refuse an unsupported configuration, answer the mask of `Gen`, or reject with its
reason. -/
theorem evaluate_cases (s : State) (g : 2 ≤ s.cfg.w → GenOutcome s.cfg.w) :
    (¬ s.cfg.Supported ∧ evaluate s g = .refused (.typeConstraintViolation s.cfg.w)) ∨
    (∃ (h : s.cfg.Supported) (m : Mask s.cfg.w), g (Config.two_le_of_supported h) = .ok m ∧
      evaluate s g = .next { s with mask := m, err := 0b000 }) ∨
    (∃ (h : s.cfg.Supported) (r : Rejection), g (Config.two_le_of_supported h) = .reject r ∧
      evaluate s g = .fault (.rejected r s.cmd)) := by
  by_cases h : s.cfg.Supported
  · rw [evaluate_supported h]
    cases hg : g (Config.two_le_of_supported h) with
    | ok m => exact .inr (.inl ⟨h, m, hg, rfl⟩)
    | reject r => exact .inr (.inr ⟨h, r, hg, rfl⟩)
  · exact .inl ⟨h, evaluate_unsupported h g⟩

end Sys2Proof.Machine
end

