-- ==== Sys2Proof/Laws/Exec.lean ====
section
/-! SUPPORT. What each arm of `exec` evaluates, one lemma per command, and what decoding answers for each `OP`. -/

namespace Sys2Proof.Machine

theorem exec_all (s : State) : exec .all s = evaluate s fun _ => .ok (~~~ 0#s.cfg.w) := rfl

theorem exec_none (s : State) : exec .none s = evaluate s fun _ => .ok 0#s.cfg.w := rfl

theorem exec_msb (s : State) : exec .msb s = evaluate s fun _ => .ok (1#s.cfg.w <<< (s.cfg.w - 1)) := rfl

theorem exec_butMsb (s : State) : exec .butMsb s = evaluate s fun _ => .ok (~~~ (1#s.cfg.w <<< (s.cfg.w - 1))) := rfl

theorem exec_lsb (s : State) : exec .lsb s = evaluate s fun _ => .ok 1#s.cfg.w := rfl

theorem exec_butLsb (s : State) : exec .butLsb s = evaluate s fun _ => .ok (~~~ 1#s.cfg.w) := rfl

theorem exec_bit (n : Nat) (s : State) :
    exec (.bit n) s = evaluate s fun _ => checkPos s.cfg.w n fun _ => .ok (1#s.cfg.w <<< n) := rfl

theorem exec_butBit (n : Nat) (s : State) :
    exec (.butBit n) s = evaluate s fun _ => checkPos s.cfg.w n fun _ => .ok (~~~ (1#s.cfg.w <<< n)) := rfl

theorem exec_upTo (n : Nat) (s : State) :
    exec (.upTo n) s = evaluate s fun hw => checkPos s.cfg.w n fun _ => .ok (upToVal hw n) := rfl

theorem exec_downTo (n : Nat) (s : State) :
    exec (.downTo n) s = evaluate s fun hw => checkPos s.cfg.w n fun _ => .ok (downToVal hw n) := rfl

theorem exec_fromTo (n1 n2 : Nat) (s : State) :
    exec (.fromTo n1 n2) s = evaluate s fun hw =>
      checkRange s.cfg.w n1 n2 fun _ _ _ => .ok (upToVal hw n2 &&& downToVal hw n1) := rfl

theorem exec_butFromTo (n1 n2 : Nat) (s : State) :
    exec (.butFromTo n1 n2) s = evaluate s fun hw =>
      if s.cfg.hasButFromTo then
        checkRange s.cfg.w n1 n2 fun _ _ _ => .ok (~~~ (upToVal hw n2 &&& downToVal hw n1))
      else .reject (.illegalOperation 0xB) := rfl

end Sys2Proof.Machine
end

