-- ==== Sys2Proof/Laws/PerInstr.lean ====
section
/-! SUPPORT. Facts about every command as syntax, one lemma per constructor. -/

namespace Sys2Proof.Laws.EncodedFields

/-- The word of a well-formed command carries its opcode and its operands in their fields (R39, R50). -/
def Statement (i : Instr) : Prop :=
  i.wellFormed = true →
    (opField (encode i)).toNat = i.opcode ∧ fieldB (encode i) = i.operandB ∧ fieldA (encode i) = i.operandA

theorem all : Statement .all := fun _ => by decide

theorem none : Statement .none := fun _ => by decide

theorem msb : Statement .msb := fun _ => by decide

theorem butMsb : Statement .butMsb := fun _ => by decide

theorem lsb : Statement .lsb := fun _ => by decide

theorem butLsb : Statement .butLsb := fun _ => by decide

theorem bit (n : Nat) : Statement (.bit n) := fun h =>
  fields_of_wordNumber (op := 6) (b := 0) (by decide) (by decide) ((fitsField_iff n).mp h)

theorem butBit (n : Nat) : Statement (.butBit n) := fun h =>
  fields_of_wordNumber (op := 7) (b := 0) (by decide) (by decide) ((fitsField_iff n).mp h)

theorem upTo (n : Nat) : Statement (.upTo n) := fun h =>
  fields_of_wordNumber (op := 8) (b := 0) (by decide) (by decide) ((fitsField_iff n).mp h)

theorem downTo (n : Nat) : Statement (.downTo n) := fun h =>
  fields_of_wordNumber (op := 9) (b := 0) (by decide) (by decide) ((fitsField_iff n).mp h)

theorem fromTo (n1 n2 : Nat) : Statement (.fromTo n1 n2) := fun h => by
  have h : fitsField n1 = true ∧ fitsField n2 = true := by simpa [Instr.wellFormed] using h
  exact fields_of_wordNumber (op := 10) (by decide) ((fitsField_iff n2).mp h.2) ((fitsField_iff n1).mp h.1)

theorem butFromTo (n1 n2 : Nat) : Statement (.butFromTo n1 n2) := fun h => by
  have h : fitsField n1 = true ∧ fitsField n2 = true := by simpa [Instr.wellFormed] using h
  exact fields_of_wordNumber (op := 11) (by decide) ((fitsField_iff n2).mp h.2) ((fitsField_iff n1).mp h.1)

end Sys2Proof.Laws.EncodedFields
end

