-- ==== Sys2Proof/Laws/Run.lean ====
section
/-! SUPPORT. One more step of a run, and one more command of a program. -/

namespace Sys2Proof.Machine

/-- A run of one step more begins with that step. -/
theorem run_succ (M : Host.Core) (k : Nat) (s : M.State) :
    M.run (k + 1) s = match M.step s with
      | .next t => M.run k t
      | .fault r => .fault r
      | .refused r => .refused r := rfl

theorem runCommands_cons (s : State) (cmd : CmdWord) (rest : List CmdWord) :
    runCommands s (cmd :: rest) =
      driveCommand s cmd :: runCommands (afterCommand s cmd rest.length) rest := rfl

end Sys2Proof.Machine
end

