-- ==== Sys2Proof/Laws/Text.lean ====
section
/-! SUPPORT. What the assembler's small readers do with the texts the disassembler prints: a decimal is read as its number,
and cutting a line at blanks and commas gives its pieces back. -/

namespace Sys2Proof.Machine

/-- A character that ends no piece of a line: no blank, comma or semicolon. -/
def plain (c : Char) : Bool := !isBlank c && c != ',' && c != ';'

theorem digits_append (base : Nat) (digit? : Char → Option Nat) (acc : Nat) (t : Text) (c : Char) :
    digits? base digit? acc (t ++ [c]) =
      (digits? base digit? acc t).bind fun n => (digit? c).map fun d => n * base + d := by
  induction t generalizing acc with
  | nil => cases h : digit? c <;> simp [digits?, h]
  | cons a t ih =>
    cases h : digit? a with
    | none => simp [digits?, h]
    | some d => simp only [List.cons_append, digits?, h, ih]

theorem decimalDigit_digitChar : ∀ d, d < 10 → decimalDigit? d.digitChar = some d := by decide

theorem plain_digitChar : ∀ d, d < 10 → plain d.digitChar = true ∧ d.digitChar ≠ 'x' := by decide

/-- Reading a decimal gives its number. -/
theorem digits_decimal (n : Nat) : digits? 10 decimalDigit? 0 (decimal n) = some n := by
  induction n using Nat.strongRecOn with
  | _ n ih =>
    unfold decimal at ih ⊢
    rcases Nat.lt_or_ge n 10 with h | h
    · rw [Nat.toDigits_of_lt_base h]
      simp [digits?, decimalDigit_digitChar n h]
    · rw [Nat.toDigits_of_base_le (by decide) h, digits_append, ih (n / 10) (by omega)]
      simp [decimalDigit_digitChar (n % 10) (by omega)]
      omega

/-- A decimal is not empty, and each of its characters is plain and no `x`. -/
theorem decimal_chars (n : Nat) : decimal n ≠ [] ∧ ∀ c ∈ decimal n, plain c = true ∧ c ≠ 'x' := by
  induction n using Nat.strongRecOn with
  | _ n ih =>
    unfold decimal at ih ⊢
    refine ⟨Nat.toDigits_ne_nil, fun c hc => ?_⟩
    rcases Nat.lt_or_ge n 10 with h | h
    · rw [Nat.toDigits_of_lt_base h, List.mem_singleton] at hc
      exact hc ▸ plain_digitChar n h
    · rw [Nat.toDigits_of_base_le (by decide) h, List.mem_append, List.mem_singleton] at hc
      rcases hc with hc | hc
      · exact (ih (n / 10) (by omega)).2 c hc
      · exact hc ▸ plain_digitChar (n % 10) (by omega)

theorem number_decimal (n : Nat) : number? (decimal n) = some n := by
  have noPrefix : ((decimal n).take 2 == ['0', 'x']) = false := by
    rw [beq_eq_false_iff_ne]
    intro h
    have : 'x' ∈ decimal n := List.mem_of_mem_take (h ▸ by decide : 'x' ∈ (decimal n).take 2)
    exact ((decimal_chars n).2 _ this).2 rfl
  simp [number?, noPrefix, (decimal_chars n).1, digits_decimal]

/-- A text with no blank at either end has nothing to trim. -/
theorem trim_eq_self {t : Text} (hfirst : ∀ c ∈ t.head?, isBlank c = false) (hlast : ∀ c ∈ t.getLast?, isBlank c = false) :
    trim t = t := by
  have drop (u : Text) (h : ∀ c ∈ u.head?, isBlank c = false) : u.dropWhile isBlank = u := by
    cases u with
    | nil => rfl
    | cons c u => simp [h c (by simp)]
  rw [trim, drop t hfirst, drop t.reverse (by simpa using hlast), List.reverse_reverse]

theorem plain_of_mem {t : Text} (h : ∀ c ∈ t, plain c = true) {c : Char} (hc : c ∈ t) :
    isBlank c = false ∧ c ≠ ',' ∧ c ≠ ';' := by
  have := h c hc
  simp [plain] at this
  exact ⟨this.1.1, this.1.2, this.2⟩

theorem trim_plain {t : Text} (h : ∀ c ∈ t, plain c = true) : trim t = t :=
  trim_eq_self (fun _ hc => (plain_of_mem h (List.mem_of_mem_head? hc)).1)
    (fun _ hc => (plain_of_mem h (List.mem_of_mem_getLast? hc)).1)

theorem trim_blank_cons (t : Text) : trim (' ' :: t) = trim t := rfl

theorem splitCommas_plain {t : Text} (h : ∀ c ∈ t, c ≠ ',') : splitCommas t = [t] := by
  induction t with
  | nil => rfl
  | cons c t ih => simp [splitCommas, h c (by simp), ih fun a ha => h a (by simp [ha])]

theorem splitCommas_append {t : Text} (h : ∀ c ∈ t, c ≠ ',') (u : Text) :
    splitCommas (t ++ ',' :: u) = t :: splitCommas u := by
  induction t with
  | nil => rfl
  | cons c t ih => simp [splitCommas, h c (by simp), ih fun a ha => h a (by simp [ha])]

/-- The operands of a line with one position. -/
theorem numbers_one (n : Nat) : numbers? (operandTexts (decimal n)) = some [n] := by
  have hd := decimal_chars n
  have hp : ∀ c ∈ decimal n, plain c = true := fun c hc => (hd.2 c hc).1
  rw [operandTexts, splitCommas_plain fun c hc => (plain_of_mem hp hc).2.1]
  simp [hd.1, numbers?, trim_plain hp, number_decimal]

/-- The operands of a line with two positions. -/
theorem numbers_two (n1 n2 : Nat) : numbers? (operandTexts (decimal n1 ++ [',', ' '] ++ decimal n2)) = some [n1, n2] := by
  have h1 : ∀ c ∈ decimal n1, plain c = true := fun c hc => ((decimal_chars n1).2 c hc).1
  have h2 : ∀ c ∈ decimal n2, plain c = true := fun c hc => ((decimal_chars n2).2 c hc).1
  have spaced : ∀ c ∈ ' ' :: decimal n2, c ≠ ',' := fun c hc => by
    rcases List.mem_cons.mp hc with rfl | hc
    · decide
    · exact (plain_of_mem h2 hc).2.1
  have cut : splitCommas (decimal n1 ++ ',' :: ' ' :: decimal n2) = [decimal n1, ' ' :: decimal n2] := by
    rw [splitCommas_append fun c hc => (plain_of_mem h1 hc).2.1, splitCommas_plain spaced]
  simp [operandTexts, cut, numbers?, trim_plain h1, trim_blank_cons, trim_plain h2, number_decimal]

end Sys2Proof.Machine
end

