-- ==== Sys2Proof/Tests/Slice0.lean ====
section
/-! SUPPORT. Tests: words and masks from spec/95_test_vectors.md, the checks refusing ill-formed terms, and a witness for the
hypotheses of every statement that has some. -/

open Sys2Proof Sys2Proof.Machine

namespace Sys2Proof.Tests

/-- A block with this command on `cmd`. Its outputs hold values that no test expects. -/
def block (w : Nat) (has : Bool) (cmd : CmdWord) : State :=
  { cfg := { w := w, hasButFromTo := has }, cmd := cmd, mask := 0, err := 0b111 }

/-! ### WellFormed and Config refuse ill-formed terms -/

theorem test_wellFormed_refuses_wide_position : (Instr.bit 64).wellFormed = false := by decide
theorem test_wellFormed_refuses_wide_but_bit : (Instr.butBit 64).wellFormed = false := by decide
theorem test_wellFormed_refuses_wide_up_to : (Instr.upTo 64).wellFormed = false := by decide
theorem test_wellFormed_refuses_wide_down_to : (Instr.downTo 64).wellFormed = false := by decide
theorem test_wellFormed_refuses_wide_low_end : (Instr.fromTo 64 5).wellFormed = false := by decide
theorem test_wellFormed_refuses_wide_high_end : (Instr.butFromTo 5 64).wellFormed = false := by decide
theorem test_wellFormed_accepts_last_position : (Instr.fromTo 0 63).wellFormed = true := by decide
theorem test_available_refuses_but_from_to : (Instr.butFromTo 2 5).available false = false := by decide
theorem test_supported_refuses_width_12 : ¬ ({ w := 12, hasButFromTo := true } : Config).Supported := by decide

/-! ### Decoding: words written out from the format of R39, one for every operation and every reserved `OP` -/

theorem test_decode_all : decode true 0b0000_000000_000000 = .instr .all := by decide
theorem test_decode_all_ignores_fields : decode true 0b0000_111111_111111 = .instr .all := by decide
theorem test_decode_none : decode true 0b0001_000000_000000 = .instr .none := by decide
theorem test_decode_msb : decode true 0b0010_000000_000000 = .instr .msb := by decide
theorem test_decode_but_msb : decode true 0b0011_000000_000000 = .instr .butMsb := by decide
theorem test_decode_lsb : decode true 0b0100_000000_000000 = .instr .lsb := by decide
theorem test_decode_but_lsb : decode true 0b0101_000000_000000 = .instr .butLsb := by decide
theorem test_decode_bit : decode true 0b0110_111111_000001 = .instr (.bit 1) := by decide
theorem test_decode_but_bit : decode true 0b0111_000000_100000 = .instr (.butBit 32) := by decide
theorem test_decode_up_to : decode true 0b1000_000000_111111 = .instr (.upTo 63) := by decide
theorem test_decode_down_to : decode true 0b1001_000000_000101 = .instr (.downTo 5) := by decide
theorem test_decode_from_to : decode true 0b1010_000101_000010 = .instr (.fromTo 2 5) := by decide
theorem test_decode_but_from_to : decode true 0b1011_100000_011111 = .instr (.butFromTo 31 32) := by decide
theorem test_decode_but_from_to_absent : decode false 0b1011_000101_000010 = .illegal 0xB := by decide
theorem test_decode_reserved :
    decode true 0xC008 = .illegal 0xC ∧ decode true 0xD123 = .illegal 0xD ∧ decode true 0xE000 = .illegal 0xE ∧
    decode true 0xFFFF = .illegal 0xF := by decide
theorem test_encode_from_to : encode (.fromTo 31 32) = 0xA81F := by decide
theorem test_encode_down_to : encode (.downTo 63) = 0x903F := by decide
theorem test_decodeTableWord : decodeTableWord 16 0xB142 = some (.butFromTo 2 5) ∧ decodeTableWord 16 0xC000 = none := by
  decide

/-! ### One step: vectors of 95_test_vectors.md, named by their ids there -/

theorem test_step_all_P1 : Yields (step (block 8 true 0x0000)) (block 8 true 0x0000) 0xFF#8 := rfl
theorem test_step_all_fields_X7 : Yields (step (block 8 true 0x0FFF)) (block 8 true 0x0FFF) 0xFF#8 := rfl
theorem test_step_none_P8 : Yields (step (block 16 true 0x1000)) (block 16 true 0x1000) 0x0000#16 := rfl
theorem test_step_msb_P21 : Yields (step (block 64 true 0x2000)) (block 64 true 0x2000) 0x8000000000000000#64 := rfl
theorem test_step_but_msb_P16 : Yields (step (block 32 true 0x3000)) (block 32 true 0x3000) 0x7FFFFFFF#32 := rfl
theorem test_step_lsb_P5 : Yields (step (block 8 true 0x4000)) (block 8 true 0x4000) 0x01#8 := rfl
theorem test_step_but_lsb_P12 : Yields (step (block 16 true 0x5000)) (block 16 true 0x5000) 0xFFFE#16 := rfl
theorem test_step_bit_S3 : Yields (step (block 8 true 0x6007)) (block 8 true 0x6007) 0x80#8 := rfl
theorem test_step_bit_S4 :
    Rejects (step (block 8 true 0x6008)) (block 8 true 0x6008) (.rangeConstraintViolation (.aOutOfRange 8)) := rfl
theorem test_step_but_bit_S28 : Yields (step (block 32 true 0x701F)) (block 32 true 0x701F) 0x7FFFFFFF#32 := rfl
theorem test_step_but_bit_X11 :
    Rejects (step (block 8 true 0x7FC8)) (block 8 true 0x7FC8) (.rangeConstraintViolation (.aOutOfRange 8)) := rfl
theorem test_step_up_to_U2 : Yields (step (block 8 true 0x8003)) (block 8 true 0x8003) 0x0F#8 := rfl
theorem test_step_up_to_U12 :
    Rejects (step (block 16 true 0x8010)) (block 16 true 0x8010) (.rangeConstraintViolation (.aOutOfRange 16)) := rfl
theorem test_step_down_to_U6 : Yields (step (block 8 true 0x9003)) (block 8 true 0x9003) 0xF8#8 := rfl
theorem test_step_down_to_U24 :
    Rejects (step (block 32 true 0x9020)) (block 32 true 0x9020) (.rangeConstraintViolation (.aOutOfRange 32)) := rfl
theorem test_step_from_to_F1 : Yields (step (block 8 true 0xA142)) (block 8 true 0xA142) 0x3C#8 := rfl
theorem test_step_from_to_F9 :
    Rejects (step (block 8 true 0xA205)) (block 8 true 0xA205) (.rangeConstraintViolation (.bOutOfRange 8)) := rfl
theorem test_step_but_from_to_F28 : Yields (step (block 16 true 0xB142)) (block 16 true 0xB142) 0xFFC3#16 := rfl
theorem test_step_but_from_to_X5 :
    Rejects (step (block 8 false 0xB142)) (block 8 false 0xB142) (.illegalOperation 0xB) := rfl
theorem test_step_reserved_X6 :
    Rejects (step (block 8 true 0xC008)) (block 8 true 0xC008) (.illegalOperation 0xC) := rfl
theorem test_from_to_E16_unbounded_position :
    Rejects (exec (.fromTo 64 70) (block 64 true 0)) (block 64 true 0) (.rangeConstraintViolation (.aOutOfRange 64)) := rfl
theorem test_step_unsupported_width : step (block 12 true 0x0000) = .refused (.typeConstraintViolation 12) := rfl
theorem test_step_withFetchWord :
    Yields (step (State.reset.withFetchWord 16 0x803F)) (State.reset.withFetchWord 16 0x803F) 0xFFFFFFFFFFFFFFFF#64 := rfl

/-! ### The text -/

theorem test_assemble_from_to_F1 : assembleLine "from_to 2, 5 ; 0xA142".toList = .command (.fromTo 2 5) := by decide
theorem test_assemble_hexadecimal : assembleLine "  up_to 0x3F".toList = .command (.upTo 63) := by decide
theorem test_assemble_refuses_wide_operand : assembleLine "bit 64".toList = .operandTooWide := by decide
theorem test_assemble_refuses_missing_operand : assembleLine "bit".toList = .unreadable := by decide
theorem test_assemble_program_L3_4 :
    assemble [".width 32".toList, ".but_from_to off".toList, "but_from_to 4, 11  ; 0xB2C4".toList] =
      some { width := some 32, butFromTo := some false, words := [0xB2C4] } := by decide
theorem test_disassemble_ignores_field_X10 : disassemble true 0x6FC1 = "bit 1".toList := by decide
theorem test_disassemble_reserved_X2 : disassemble true 0xD123 = ".illegal 0xD123".toList := by decide

/-! ### Ports -/

theorem test_readPorts_never_driven : readPorts ({ mask := 0x0F, err := 0b101 } : Ports 8) = .neverDriven 0b101 := by
  decide
theorem test_readPorts_rejection : readPorts ({ mask := 0x0F, err := 0b100 } : Ports 8) = .rejection 0b100 := by decide

/-! ### The hypotheses of the statements can be met, clause by clause -/

theorem witness_StepRunsDecodedCommand :
    decode (block 8 true 0x6007).cfg.hasButFromTo (block 8 true 0x6007).cmd = .instr (.bit 7) ∧
    (block 8 true 0xC000).cfg.Supported ∧
    decode (block 8 true 0xC000).cfg.hasButFromTo (block 8 true 0xC000).cmd = .illegal 0xC := by decide

theorem witness_DecodeEncodeRoundTrip :
    (Instr.fromTo 0 63).wellFormed = true ∧ (Instr.butFromTo 63 63).wellFormed = true := by decide

theorem witness_EncodingOfDecodedKeepsUsedFields : decode true 0x6FC1 = .instr (.bit 1) := by decide

theorem witness_CommandMatchesExactlyOneRow :
    (opField 0xBFFF).toNat ≤ 0xB ∧ 0xB < (opField 0xC000).toNat := by decide

theorem witness_CommandWordIsItsFields : (3 : Nat) < 4 := by decide

theorem witness_IgnoredFieldsChangeNothing :
    opField 0x5000 = opField 0x5FFF ∧ (opField 0x5000).toNat ≤ 0x5 ∧ opField 0x9FC7 = opField 0x9007 ∧
    (opField 0x9FC7).toNat ≤ 0x9 ∧ fieldA 0x9FC7 = fieldA 0x9007 := by decide

theorem witness_ReservedOperationsAreRejected :
    (block 8 true 0xC008).cfg.Supported ∧ 0xC ≤ (opField (block 8 true 0xC008).cmd).toNat := by decide

theorem witness_ButFromToFollowsItsParameter :
    (block 8 false 0xB142).cfg.Supported ∧ opField (block 8 false 0xB142).cmd = 0xB ∧
    (block 8 false 0xB142).cfg.hasButFromTo = false ∧ (block 8 true 0xB142).cfg.hasButFromTo = true := by decide

theorem witness_AllSetsEveryBit :
    opField 0x0FFF = 0x0 ∧ (block 64 true 0x0000).cfg.Supported ∧ (block 8 true 0x0000).cfg.w = 8 ∧
    (block 8 true 0x0000).cmd = 0x0000 := by decide

theorem witness_NoneClearsEveryBit :
    opField 0x1FFF = 0x1 ∧ (block 64 true 0x1000).cfg.Supported ∧ (block 8 true 0x1000).cfg.w = 8 ∧
    (block 8 true 0x1000).cmd = 0x1000 := by decide

theorem witness_MsbSetsTheHighestBitOnly :
    opField 0x2FC0 = 0x2 ∧ (block 64 true 0x2000).cfg.Supported ∧ (block 8 true 0x2000).cfg.w = 8 ∧
    (block 8 true 0x2000).cmd = 0x2000 ∧ (block 64 true 0x2000).cfg.w = 64 := by decide

theorem witness_ButMsbClearsTheHighestBitOnly :
    opField 0x3FFF = 0x3 ∧ (block 64 true 0x3000).cfg.Supported ∧ (block 8 true 0x3000).cfg.w = 8 ∧
    (block 8 true 0x3000).cmd = 0x3000 := by decide

theorem witness_LsbSetsTheLowestBitOnly :
    opField 0x4FFF = 0x4 ∧ (block 64 true 0x4000).cfg.Supported ∧ (block 8 true 0x4000).cfg.w = 8 ∧
    (block 8 true 0x4000).cmd = 0x4000 := by decide

theorem witness_ButLsbClearsTheLowestBitOnly :
    opField 0x5FFF = 0x5 ∧ (block 64 true 0x5000).cfg.Supported ∧ (block 8 true 0x5000).cfg.w = 8 ∧
    (block 8 true 0x5000).cmd = 0x5000 := by decide

theorem witness_PrimitiveMaskLaws : (block 16 true 0x0000).cfg.Supported := by decide

theorem witness_PrimitiveMasksAreNeverRejected :
    (block 8 true 0x5FFF).cfg.Supported ∧ (opField (block 8 true 0x5FFF).cmd).toNat ≤ 0x5 := by decide

theorem witness_BitSetsOnePosition :
    opField 0x6FC1 = 0x6 ∧ (block 8 true 0x6007).cfg.Supported ∧ 7 < (block 8 true 0x6007).cfg.w ∧
    (block 8 true 0x6008).cfg.w ≤ 8 ∧ (block 8 true 0x6007).cfg.w = 8 ∧ (block 8 true 0x6007).cmd = 0x6007 := by decide

theorem witness_ButBitClearsOnePosition :
    opField 0x7FC8 = 0x7 ∧ (block 8 true 0x7003).cfg.Supported ∧ 7 < (block 8 true 0x7003).cfg.w ∧
    (block 8 true 0x7008).cfg.w ≤ 8 ∧ (block 8 true 0x7003).cfg.w = 8 ∧ (block 8 true 0x7003).cmd = 0x7003 := by decide

theorem witness_SelectorCornerCases :
    (block 8 true 0x6008).cfg.Supported ∧ (block 8 true 0x6008).cfg.w ≤ 8 ∧
    opField 0x6FC1 = opField 0x6001 ∧ fieldA 0x6FC1 = fieldA 0x6001 ∧ opField 0x6FC1 = 0x6 ∧
    (block 64 true 0x703F).cfg.w = 64 ∧ opField (block 64 true 0x703F).cmd = 0x7 := by decide

theorem witness_SelectorPopcounts : (block 8 true 0).cfg.Supported ∧ 7 < (block 8 true 0).cfg.w := by decide

/-- The values an iteration goes through, as a sequence. -/
def iterates {w : Nat} (body : Mask w → Mask w) (start : Mask w) (k : Nat) : Mask w := repeatTimes body k start

theorem witness_UpToIteratesUpward :
    opField 0x8FC3 = 0x8 ∧ (block 8 true 0x8003).cfg.Supported ∧ 7 < (block 8 true 0x8003).cfg.w ∧
    iterates (fun v => v ||| v <<< 1) 1#8 0 = 1#8 ∧
    (∀ k, iterates (fun v => v ||| v <<< 1) 1#8 (k + 1) =
      iterates (fun v => v ||| v <<< 1) 1#8 k ||| iterates (fun v => v ||| v <<< 1) 1#8 k <<< 1) ∧
    (block 8 true 0x8008).cfg.w ≤ 8 ∧ (block 8 true 0x8003).cfg.w = 8 ∧ (block 8 true 0x8003).cmd = 0x8003 :=
  ⟨by decide, by decide, by decide, rfl, fun k => repeatTimes_succ _ k _, by decide, rfl, rfl⟩

theorem witness_UpToClosedForm :
    (block 8 true 0).cfg.Supported ∧ 7 < (block 8 true 0).cfg.w ∧ iterates (fun v => v ||| v <<< 1) 1#8 0 = 1#8 ∧
    (∀ k, iterates (fun v => v ||| v <<< 1) 1#8 (k + 1) =
      iterates (fun v => v ||| v <<< 1) 1#8 k ||| iterates (fun v => v ||| v <<< 1) 1#8 k <<< 1) ∧
    (7 : Nat) < 8 ∧ (0 : Nat) < 8 :=
  ⟨by decide, by decide, rfl, fun k => repeatTimes_succ _ k _, by decide, by decide⟩

theorem witness_UpToPopcount : (block 64 true 0).cfg.Supported ∧ 63 < (block 64 true 0).cfg.w := by decide

/-- One iteration of `up_to` whose shift moves a 1 into the vacated bit 0. -/
def fillUp (w : Nat) (v : Mask w) : Mask w := v ||| (v <<< 1 ||| if true then 1#w else 0#w)

/-- One iteration of `down_to` whose shift moves a 1 into the vacated highest bit. -/
def fillDown (w : Nat) (v : Mask w) : Mask w := v ||| (v >>> 1 ||| if true then 1#w <<< (w - 1) else 0#w)

theorem witness_ShiftConventionNeverDecides :
    (block 8 true 0).cfg.Supported ∧ 7 < (block 8 true 0).cfg.w ∧
    iterates (fillUp 8) 1#8 0 = 1#8 ∧
    (∀ k, iterates (fillUp 8) 1#8 (k + 1) = fillUp 8 (iterates (fillUp 8) 1#8 k)) ∧
    0 < (block 8 true 0).cfg.w ∧ iterates (fillDown 8) (1#8 <<< 7) 0 = 1#8 <<< 7 ∧
    (∀ k, iterates (fillDown 8) (1#8 <<< 7) (k + 1) = fillDown 8 (iterates (fillDown 8) (1#8 <<< 7) k)) ∧
    (6 : Nat) < 8 - 1 - 0 :=
  ⟨by decide, by decide, rfl, fun k => repeatTimes_succ _ k _, by decide, rfl, fun k => repeatTimes_succ _ k _, by decide⟩

theorem witness_DownToIteratesDownward :
    opField 0x9FDF = 0x9 ∧ (block 8 true 0x9005).cfg.Supported ∧ 7 < (block 8 true 0x9005).cfg.w ∧
    iterates (fun v => v ||| v >>> 1) (1#8 <<< 7) 0 = 1#8 <<< 7 ∧
    (∀ k, iterates (fun v => v ||| v >>> 1) (1#8 <<< 7) (k + 1) =
      iterates (fun v => v ||| v >>> 1) (1#8 <<< 7) k ||| iterates (fun v => v ||| v >>> 1) (1#8 <<< 7) k >>> 1) ∧
    (block 8 true 0x9008).cfg.w ≤ 8 ∧ (block 8 true 0x9005).cfg.w = 8 ∧ (block 8 true 0x9005).cmd = 0x9005 :=
  ⟨by decide, by decide, by decide, rfl, fun k => repeatTimes_succ _ k _, by decide, rfl, rfl⟩

theorem witness_DownToClosedForm :
    (block 8 true 0).cfg.Supported ∧ 0 < (block 8 true 0).cfg.w ∧
    iterates (fun v => v ||| v >>> 1) (1#8 <<< 7) 0 = 1#8 <<< (8 - 1) ∧
    (∀ k, iterates (fun v => v ||| v >>> 1) (1#8 <<< 7) (k + 1) =
      iterates (fun v => v ||| v >>> 1) (1#8 <<< 7) k ||| iterates (fun v => v ||| v >>> 1) (1#8 <<< 7) k >>> 1) ∧
    (7 : Nat) < 8 ∧ (0 : Nat) < 8 :=
  ⟨by decide, by decide, rfl, fun k => repeatTimes_succ _ k _, by decide, by decide⟩

theorem witness_DownToPopcount : (block 64 true 0).cfg.Supported ∧ 0 < (block 64 true 0).cfg.w := by decide

theorem witness_FromToIntersectsTheBuilders :
    opField 0xAFC0 = 0xA ∧ (block 8 true 0xA142).cfg.Supported ∧ (6 : Nat) < 7 ∧ 7 < (block 8 true 0xA142).cfg.w ∧
    (block 8 true 0xA142).cfg.w ≤ 8 ∧ (7 : Nat) ≤ 7 ∧ (block 8 true 0xA142).cfg.w = 8 ∧
    (block 8 true 0xA142).cmd = 0xA142 := by decide

theorem witness_FromToClosedForm :
    (block 8 true 0).cfg.Supported ∧ (0 : Nat) < 7 ∧ 7 < (block 8 true 0).cfg.w := by decide

theorem witness_FromToCornerCases :
    (block 8 true 0).cfg.Supported ∧ (1 : Nat) ≤ 1 ∧ 1 < (block 8 true 0).cfg.w ∧ 6 ≤ (block 8 true 0).cfg.w - 2 ∧
    6 + 1 < (block 8 true 0).cfg.w ∧ 7 < (block 8 true 0).cfg.w ∧ (6 : Nat) < 7 := by decide

theorem witness_ButFromToComplementsFromTo :
    opField 0xB142 = 0xB ∧ (block 8 false 0xB142).cfg.Supported ∧ (block 8 false 0xB142).cfg.hasButFromTo = false ∧
    opField (block 8 false 0xB142).cmd = 0xB ∧
    (block 8 true 0xB142).cfg.Supported ∧ (block 8 true 0xB142).cfg.hasButFromTo = true ∧ (0 : Nat) < 7 ∧
    7 < (block 8 true 0xB142).cfg.w ∧ (block 8 true 0xB142).cfg.w = 8 ∧ (block 8 true 0xB142).cmd = 0xB142 := by decide

theorem witness_ButFromToLaws :
    (block 8 true 0).cfg.Supported ∧ (block 8 true 0).cfg.hasButFromTo = true ∧ (0 : Nat) < 7 ∧
    7 < (block 8 true 0).cfg.w := by decide

theorem witness_OperationEqualities :
    (block 32 true 0).cfg.Supported ∧ 31 < (block 32 true 0).cfg.w ∧ 30 < (block 32 true 0).cfg.w - 1 := by decide

theorem witness_RejectionReasonsCodesAndCauses :
    (block 8 true 0xA0C9).cfg.Supported ∧ (Instr.fromTo 9 3).available (block 8 true 0xA0C9).cfg.hasButFromTo = true ∧
    Yields (step (block 8 true 0x8003)) (block 8 true 0x8003) 0x0F#8 ∧
    RejectedFor (block 8 true 0xA0C9).cfg (.fromTo 9 3) (.rangeConstraintViolation (.aOutOfRange 9)) :=
  ⟨by decide, rfl, rfl, .inl ⟨by decide, rfl⟩⟩

theorem witness_AbsentButFromToMeaningRejects :
    (block 8 false 0).cfg.Supported ∧ (block 8 false 0).cfg.hasButFromTo = false := by decide

theorem witness_UnsupportedWidthHasNoStep :
    ¬ (block 7 true 0).cfg.Supported ∧ ¬ (block 65 true 0).cfg.Supported ∧ (block 64 true 0).cfg.Supported := by decide

theorem witness_RejectionPriority :
    Rejects (step (block 8 true 0xA0C9)) (block 8 true 0xA0C9) (.rangeConstraintViolation (.aOutOfRange 9)) ∧
    (block 8 true 0xC008).cfg.Supported ∧ 0xC ≤ (opField (block 8 true 0xC008).cmd).toNat ∧
    opField (block 8 false 0xB142).cmd = 0xB ∧ (block 8 false 0xB142).cfg.hasButFromTo = false ∧
    (block 8 true 0).cfg.hasButFromTo = true ∧ (block 8 true 0).cfg.w ≤ 8 ∧ 7 < (block 8 true 0).cfg.w ∧
    (7 : Nat) ≤ 7 ∧ (block 8 true 0).cfg.w = 8 :=
  ⟨rfl, by decide, by decide, by decide, rfl, rfl, by decide, by decide, by decide, rfl⟩

theorem witness_MaskExactlyWhenLegal :
    (block 8 true 0).cfg.Supported ∧ Legal (block 8 true 0).cfg (.bit 7) ∧ ¬ Legal (block 8 true 0).cfg (.bit 8) :=
  ⟨by decide, show 7 < 8 by decide, show ¬ 8 < 8 by decide⟩

theorem witness_StepIsGen : (block 8 true 0x8003).cfg.Supported := by decide

theorem witness_EveryCommandMeetsItsClosedForm :
    (block 8 true 0x8007).cfg.Supported ∧ Legal (block 8 true 0x8007).cfg (.upTo 7) ∧
    ¬ Legal (block 8 true 0x8007).cfg (.upTo 8) ∧
    decode (block 8 true 0x8007).cfg.hasButFromTo (block 8 true 0x8007).cmd = .instr (.upTo 7) :=
  ⟨by decide, show 7 < 8 by decide, show ¬ 8 < 8 by decide, by decide⟩

theorem witness_OnlyOutputsAreWritten :
    (∃ t, exec (.fromTo 2 5) (block 8 true 0) = .next t) ∧ ∃ t, step (block 8 true 0xA142) = .next t :=
  ⟨⟨_, rfl⟩, ⟨_, rfl⟩⟩

theorem witness_EvaluationIsIdempotent : ∃ t, step (block 8 true 0xA142) = .next t := ⟨_, rfl⟩

theorem witness_RejectionLeavesNoTrace :
    Rejects (driveCommand (block 8 true 0) 0x6008) ((block 8 true 0).present 0x6008)
      (.rangeConstraintViolation (.aOutOfRange 8)) ∧
    Yields (driveCommand (block 8 true 0) 0x0000) ((block 8 true 0).present 0x0000) 0xFF#8 := ⟨rfl, rfl⟩

theorem witness_StepAnswersSettledState : ∃ t, step (block 8 true 0x9005) = .next t := ⟨_, rfl⟩

theorem witness_PortsShowTheOutcome :
    (block 8 true 0x8003).cfg.Supported ∧ Yields (step (block 8 true 0x8003)) (block 8 true 0x8003) 0x0F#8 ∧
    Rejects (step (block 8 true 0xC000)) (block 8 true 0xC000) (.illegalOperation 0xC) := ⟨by decide, rfl, rfl⟩

theorem witness_SettledPortsReadAsTheOutcome :
    (block 8 true 0x8003).cfg.Supported ∧
    Rejects (step (block 8 true 0xC000)) (block 8 true 0xC000) (.illegalOperation 0xC) := ⟨by decide, rfl⟩

theorem witness_SamplingAfterSettlingIsExact :
    (block 8 true 0x8003).cfg.Supported ∧
    SampledSettled (block 8 true 0x8003).cfg (Config.propagationDelay (block 8 true 0x8003).cfg) ∧
    Yields (step (block 8 true 0x8003)) (block 8 true 0x8003) 0x0F#8 := ⟨by decide, Nat.le_refl _, rfl⟩

theorem witness_AssemblerEncodesByFormula :
    (Instr.fromTo 63 0).wellFormed = true ∧ (Instr.bit 64).wellFormed = false ∧
    (block 8 true (encode (.fromTo 7 8))).cfg.Supported ∧ (Instr.fromTo 7 8).wellFormed = true ∧
    (block 8 true (encode (.fromTo 7 8))).cfg.w ≤ (Instr.fromTo 7 8).operandB ∧
    (block 8 true (encode (.fromTo 7 8))).cfg.w ≤ (Instr.bit 8).operandA ∧
    (block 8 true (encode (.fromTo 7 8))).cmd = encode (.fromTo 7 8) := by decide

theorem witness_LineWithWideOperandIsRejected :
    numbers? (operandTexts "64".toList) = some [64] ∧ namedCommand? (mnemonicText (.bit 64)) [64] = some (.bit 64) ∧
    (Instr.bit 64).wellFormed = false ∧
    (trim (dropComment " bit 0x40 ; wide".toList)).takeWhile (fun c => !isBlank c) = mnemonicText (.bit 64) ∧
    numbers? (operandTexts (trim ((trim (dropComment " bit 0x40 ; wide".toList)).dropWhile fun c => !isBlank c))) =
      some [64] := by decide

theorem witness_PrintedCommandIsReadBack :
    decode true 0xAFC0 = .instr (.fromTo 0 63) ∧ decode true 0x6FC1 = .instr (.bit 1) ∧
    0x6FC1 &&& (Instr.bit 1).usedBits = 0x6001 &&& (Instr.bit 1).usedBits := by decide

theorem witness_PrintedReservedWordIsReadBack : decode true 0xFFFF = .illegal 0xF := by decide

theorem witness_DirectiveDoesNotChangeEncoding :
    (Instr.butFromTo 4 11).wellFormed = true ∧ (block 32 false (encode (.butFromTo 4 11))).cfg.Supported ∧
    (block 32 false (encode (.butFromTo 4 11))).cfg.hasButFromTo = false ∧ (4 : Nat) ≤ 63 ∧ (11 : Nat) ≤ 63 ∧
    (block 32 false (encode (.butFromTo 4 11))).cmd = encode (.butFromTo 4 11) := by decide

end Sys2Proof.Tests
end

/-! # The scope statements: shifts that fill the vacated bit, and a step as `Gen` (spec/00_scope.md R10, R12) -/

section
namespace Sys2Proof.Machine

/-! ### A step is one evaluation of `Gen` -/

/-- The meaning of a command is the evaluation of its row of `Gen`. -/
theorem exec_eq_evaluate_gen (i : Instr) (s : State) :
    exec i s = evaluate s fun hw => gen s.cfg hw (.instr i) := by
  cases i <;> rfl

/-- R12, R26: one step evaluates `Gen` of the word on `cmd`, in every configuration. -/
theorem step_eq_evaluate_generate (s : State) : step s = evaluate s fun hw => generate s.cfg hw s.cmd := by
  unfold step generate
  rw [State.command_eq]
  cases decode s.cfg.hasButFromTo s.cmd with
  | instr i => exact exec_eq_evaluate_gen i s
  | illegal op => rfl

/-- Settles O40: a step is the evaluation of `Gen`, whose two outcomes have the two port views. -/
theorem stepIsGen : Obligations.StepIsGen := by
  intro s h
  rw [step_eq_evaluate_generate, evaluate_supported h]
  cases generate s.cfg (Config.two_le_of_supported h) s.cmd with
  | ok m => exact report_ok s m
  | reject r => exact report_reject s r

/-! ### The masks that `up_to` and `down_to` answer -/

theorem exec_upTo_yields {s : State} {n : Nat} (h : s.cfg.Supported) (hn : n < s.cfg.w) :
    Yields (exec (.upTo n) s) s (upToVal (Config.two_le_of_supported h) n) := by
  rw [Yields, exec_upTo, evaluate_supported h, checkPos_below hn, report_ok]

theorem exec_downTo_yields {s : State} {n : Nat} (h : s.cfg.Supported) (hn : n < s.cfg.w) :
    Yields (exec (.downTo n) s) s (downToVal (Config.two_le_of_supported h) n) := by
  rw [Yields, exec_downTo, evaluate_supported h, checkPos_below hn, report_ok]

/-! ### Shifts that move in an arbitrary bit -/

/-- A value that only ever gains bits keeps those it started with. -/
theorem or_initial_eq_self {w : Nat} {v gained : Nat → Mask w} (next : ∀ k, v (k + 1) = v k ||| gained k) (k : Nat) :
    v k ||| v 0 = v k := by
  induction k with
  | zero => exact BitVec.or_self
  | succ k ih =>
    calc v (k + 1) ||| v 0
        = v k ||| v 0 ||| gained k := by rw [next, BitVec.or_assoc, BitVec.or_comm (gained k), BitVec.or_assoc]
      _ = v (k + 1) := by rw [ih, next]

/-- The idea of R69: the vacated place is the one bit that the iteration starts from, and no iteration clears it, so what a
shift moves in there is never seen. -/
theorem filledIteration_eq_repeatTimes {w : Nat} {start : Mask w} {shift : Mask w → Mask w} {fill : Nat → Bool}
    {v : Nat → Mask w} (first : v 0 = start)
    (next : ∀ k, v (k + 1) = v k ||| (shift (v k) ||| if fill k then start else 0#w)) (m : Nat) :
    v m = repeatTimes (fun x => x ||| shift x) m start := by
  have unfilled (k : Nat) : v (k + 1) = v k ||| shift (v k) := by
    have kept : v k ||| start = v k := first ▸ or_initial_eq_self next k
    rw [next]
    cases fill k with
    | false => simp
    | true => rw [if_pos rfl, BitVec.or_comm (shift (v k)), ← BitVec.or_assoc, kept]
  rw [← first]
  exact eq_repeatTimes (fun x => x ||| shift x) v unfilled m

/-- No iteration of `up_to n` shifts a set bit out at the top. -/
theorem upTo_iteration_top_clear {w n k : Nat} (hw : 2 ≤ w) (hn : n < w) (hk : k < n) :
    (repeatTimes (extendUp hw) k 1#w).getLsbD (w - 1) = false := by
  rw [getLsbD_repeat_extendUp hw (by omega)]
  exact decide_eq_false (by omega)

/-- No iteration of `down_to n` shifts a set bit out at the bottom. -/
theorem downTo_iteration_bottom_clear {w n k : Nat} (hw : 2 ≤ w) (hk : k < w - 1 - n) :
    (repeatTimes (extendDown hw) k (1#w <<< (w - 1))).getLsbD 0 = false := by
  rw [getLsbD_repeat_extendDown hw (by omega)]
  exact decide_eq_false (by omega)

/-- Settles O25: in either direction the filled iteration is the model's own, whose bits are known. -/
theorem shiftConventionNeverDecides : Obligations.ShiftConventionNeverDecides := by
  refine ⟨fun s n fill v h hn first next => ?_, fun s n fill v h hn first next => ?_⟩
  · have hw := Config.two_le_of_supported h
    have same : ∀ k, v k = repeatTimes (extendUp hw) k 1#s.cfg.w := filledIteration_eq_repeatTimes first next
    refine ⟨?_, fun k hk => ?_⟩
    · rw [same]
      exact exec_upTo_yields h hn
    · rw [same]
      exact upTo_iteration_top_clear hw hn hk
  · have hw := Config.two_le_of_supported h
    have same : ∀ k, v k = repeatTimes (extendDown hw) k (1#s.cfg.w <<< (s.cfg.w - 1)) :=
      filledIteration_eq_repeatTimes first next
    refine ⟨?_, fun k hk => ?_⟩
    · rw [same]
      exact exec_downTo_yields h hn
    · rw [same]
      exact downTo_iteration_bottom_clear hw hk

end Sys2Proof.Machine
end

/-! # The state statements: what stands on the ports of a block (spec/10_state.md R15 to R26) -/

section
namespace Sys2Proof.Machine

/-! ### The two checks of R84, by what they can end in -/

/-- Whatever holds of the rest below `w`, and of the rejection from `w` on, holds of the position check. -/
theorem checkPos_elim {w n : Nat} {rest : n < w → GenOutcome w} {P : GenOutcome w → Prop} (below : ∀ h, P (rest h))
    (above : w ≤ n → P (.reject (.rangeConstraintViolation (.aOutOfRange n)))) : P (checkPos w n rest) := by
  rcases Nat.lt_or_ge n w with h | h
  · rw [checkPos_below h]
    exact below h
  · rw [checkPos_above h]
    exact above h

/-- Whatever holds of the rest on an ascending range, and of a rejection for a cause of R82, holds of the range check. -/
theorem checkRange_elim {w n1 n2 : Nat} {rest : n1 < w → n2 < w → n1 < n2 → GenOutcome w} {P : GenOutcome w → Prop}
    (legal : ∀ h1 h2 h, P (rest h1 h2 h)) (rejected : ∀ r, RangeRejectedFor w n1 n2 r → P (.reject r)) :
    P (checkRange w n1 n2 rest) := by
  rcases Nat.lt_or_ge n1 w with h1 | h1
  · rcases Nat.lt_or_ge n2 w with h2 | h2
    · rcases Nat.lt_or_ge n1 n2 with h | h
      · rw [checkRange_legal h h2]
        exact legal h1 h2 h
      · rw [checkRange_order h1 h2 h]
        exact rejected _ (.inr (.inr ⟨h1, h2, h, rfl⟩))
    · rw [checkRange_highEnd h1 h2]
      exact rejected _ (.inr (.inl ⟨h1, h2, rfl⟩))
  · rw [checkRange_lowEnd h1]
    exact rejected _ (.inl ⟨h1, rfl⟩)

/-! ### What `Gen` answers for a command -/

/-- The outcome that a command ought to have: the mask of its closed form if it is legal, else a reason whose cause it
meets. -/
def OutcomeFor (c : Config) (i : Instr) : GenOutcome c.w → Prop
  | .ok m => Legal c i ∧ ∀ k, k < c.w → m.getLsbD k = selects c.w i k
  | .reject r => RejectedFor c i r

/-- Bits of the range that two builders share. -/
theorem getLsbD_upToVal_and_downToVal {w n1 n2 k : Nat} (hw : 2 ≤ w) (h1 : n1 < w) (h2 : n2 < w) (hk : k < w) :
    (upToVal hw n2 &&& downToVal hw n1).getLsbD k = decide (n1 ≤ k ∧ k ≤ n2) := by
  rw [BitVec.getLsbD_and, getLsbD_upToVal hw h2, getLsbD_downToVal hw h1, ← Bool.decide_and]
  exact decide_eq_decide.mpr (by omega)

/-- All that `Gen` can do with a command: each row of it has the outcome of its closed form and of its causes. -/
theorem gen_outcomeFor (c : Config) (hw : 2 ≤ c.w) (i : Instr) : OutcomeFor c i (gen c hw (.instr i)) := by
  have top (k : Nat) : (topMask hw).getLsbD k = (k == c.w - 1) := getLsbD_one_shiftLeft (by omega)
  have low (k : Nat) : (1#c.w).getLsbD k = (k == 0) := by simp [show 0 < c.w by omega, beq_eq_decide]
  cases i with
  | all => exact ⟨trivial, fun k hk => by simp [selects, hk]⟩
  | none => exact ⟨trivial, fun k _ => by simp [selects]⟩
  | msb => exact ⟨trivial, fun k _ => top k⟩
  | butMsb => exact ⟨trivial, fun k hk => by rw [BitVec.getLsbD_not, top]; simp [selects, hk, bne]⟩
  | lsb => exact ⟨trivial, fun k _ => low k⟩
  | butLsb => exact ⟨trivial, fun k hk => by rw [BitVec.getLsbD_not, oneMask_eq, low]; simp [selects, hk, bne]⟩
  | bit n =>
    exact checkPos_elim (fun h => ⟨h, fun k _ => getLsbD_one_shiftLeft h⟩) fun h => ⟨h, rfl⟩
  | butBit n =>
    refine checkPos_elim (fun h => ⟨h, fun k hk => ?_⟩) fun h => ⟨h, rfl⟩
    rw [BitVec.getLsbD_not, shl_eq, oneMask_eq, getLsbD_one_shiftLeft h]
    simp [selects, hk, bne, beq_eq_decide]
  | upTo n =>
    exact checkPos_elim (fun h => ⟨h, fun k _ => getLsbD_upToVal hw h k⟩) fun h => ⟨h, rfl⟩
  | downTo n =>
    refine checkPos_elim (fun h => ⟨h, fun k hk => ?_⟩) fun h => ⟨h, rfl⟩
    rw [getLsbD_downToVal hw h]
    simp [selects, hk]
  | fromTo n1 n2 =>
    exact checkRange_elim (fun h1 h2 h => ⟨⟨h, h2⟩, fun k hk => getLsbD_upToVal_and_downToVal hw h1 h2 hk⟩)
      fun r hr => hr
  | butFromTo n1 n2 =>
    cases has : c.hasButFromTo with
    | false =>
      have rejected : gen c hw (.instr (.butFromTo n1 n2)) = .reject (.illegalOperation 0xB) := by
        simp [gen, genButFromTo, has]
      rw [rejected]
      exact .inl ⟨has, rfl⟩
    | true =>
      have rangeChecked : gen c hw (.instr (.butFromTo n1 n2)) =
          checkRange c.w n1 n2 fun _ _ _ => .ok (~~~ (upToVal hw n2 &&& downToVal hw n1)) := by
        simp [gen, genButFromTo, has]
      rw [rangeChecked]
      refine checkRange_elim (fun h1 h2 h => ⟨⟨has, h, h2⟩, fun k hk => ?_⟩) fun r hr => .inr ⟨has, hr⟩
      rw [BitVec.getLsbD_not, getLsbD_upToVal_and_downToVal hw h1 h2 hk]
      simp only [selects, hk, decide_true, Bool.true_and, ← decide_not]
      exact decide_eq_decide.mpr (by omega)

/-! ### The next state of an evaluation -/

/-- Only a supported configuration whose `Gen` answers a mask has a next state, and that state differs in the outputs
alone. -/
theorem evaluate_eq_next {s t : State} {g : 2 ≤ s.cfg.w → GenOutcome s.cfg.w} (h : evaluate s g = .next t) :
    ∃ (hs : s.cfg.Supported) (m : Mask s.cfg.w),
      g (Config.two_le_of_supported hs) = .ok m ∧ t = { s with mask := m, err := 0b000 } := by
  obtain ⟨_, e⟩ | ⟨hs, m, hg, e⟩ | ⟨_, r, _, e⟩ := evaluate_cases s g
  · cases e.symm.trans h
  · cases e.symm.trans h
    exact ⟨hs, m, hg, rfl⟩
  · cases e.symm.trans h

/-- Settles O48: the word of an answered step is no illegal one, so its mask is the closed form of a legal command. -/
theorem stepAnswersSettledState : Obligations.StepAnswersSettledState := by
  intro s t h
  rw [step_eq_evaluate_generate] at h
  obtain ⟨hs, m, hm, rfl⟩ := evaluate_eq_next h
  rw [generate] at hm
  cases hd : decode s.cfg.hasButFromTo s.cmd with
  | illegal op =>
    rw [hd] at hm
    cases hm
  | instr i =>
    have outcome := gen_outcomeFor s.cfg (Config.two_le_of_supported hs) i
    rw [← hd, hm] at outcome
    obtain ⟨legal, bits⟩ := outcome
    exact ⟨hs, rfl, i, hd, legal, bits⟩

theorem evaluate_next_frame {s t : State} {g : 2 ≤ s.cfg.w → GenOutcome s.cfg.w} (h : evaluate s g = .next t) :
    t.cfg = s.cfg ∧ t.cmd = s.cmd ∧ t.err = 0b000 := by
  obtain ⟨_, _, _, rfl⟩ := evaluate_eq_next h
  exact ⟨rfl, rfl, rfl⟩

/-- Settles O42: a command and a step are both evaluations. -/
theorem onlyOutputsAreWritten : Obligations.OnlyOutputsAreWritten := by
  refine ⟨fun i s t h => ?_, fun s t h => ?_⟩
  · rw [exec_eq_evaluate_gen] at h
    exact evaluate_next_frame h
  · rw [step_eq_evaluate_generate] at h
    exact evaluate_next_frame h

/-! ### What stood on the outputs does not matter -/

/-- R22: an outcome is a state with both outputs written, or holds neither of them, so it does not show what stood there
before. -/
theorem evaluate_ignores_outputs (s : State) (m : Mask s.cfg.w) (e : ErrCode)
    (g : 2 ≤ s.cfg.w → GenOutcome s.cfg.w) : evaluate { s with mask := m, err := e } g = evaluate s g := by
  by_cases h : s.cfg.Supported
  · rw [evaluate_supported h, evaluate_supported (s := { s with mask := m, err := e }) h]
    cases g (Config.two_le_of_supported h) with
    | ok m' => rfl
    | reject r => rfl
  · rw [evaluate_unsupported h, evaluate_unsupported (s := { s with mask := m, err := e }) h]

theorem step_ignores_outputs (s : State) (m : Mask s.cfg.w) (e : ErrCode) :
    step { s with mask := m, err := e } = step s := by
  rw [step_eq_evaluate_generate, step_eq_evaluate_generate]
  exact evaluate_ignores_outputs s m e _

/-- Settles O43: `Gen` is given the parameters and the command only, and `evaluate` reads no output. -/
theorem outcomeIgnoresEarlierOutputs : Obligations.OutcomeIgnoresEarlierOutputs := by
  refine ⟨step_ignores_outputs, fun i s m e => ?_⟩
  rw [exec_eq_evaluate_gen, exec_eq_evaluate_gen]
  exact evaluate_ignores_outputs s m e _

/-- A state that a step answers answers itself: it differs from the state before in the outputs alone. -/
theorem step_eq_next_self {s t : State} (h : step s = .next t) : step t = .next t := by
  have answered := h
  rw [step_eq_evaluate_generate] at answered
  obtain ⟨_, m, _, rfl⟩ := evaluate_eq_next answered
  rw [step_ignores_outputs, h]

/-- A machine whose answered states answer themselves has, in any number of steps, the outcome of one. -/
theorem run_succ_eq_step (M : Host.Core) (fixed : ∀ s t : M.State, M.step s = .next t → M.step t = .next t)
    (k : Nat) (s : M.State) : M.run (k + 1) s = M.step s := by
  induction k generalizing s with
  | zero =>
    rw [run_succ]
    cases M.step s <;> rfl
  | succ k ih =>
    rw [run_succ]
    cases h : M.step s with
    | next t => exact (ih t).trans (fixed s t h)
    | fault r => rfl
    | refused r => rfl

/-- Settles O45: the machine is one whose answered states answer themselves. -/
theorem tiedCommandIsConstant : Obligations.TiedCommandIsConstant :=
  fun s k => run_succ_eq_step core (fun _ _ => step_eq_next_self) k s

/-! ### The ports of a block -/

/-- In a supported block a step yields exactly the mask that `Gen` answers. -/
theorem step_yields_iff {s : State} (h : s.cfg.Supported) (m : Mask s.cfg.w) :
    Yields (step s) s m ↔ generate s.cfg (Config.two_le_of_supported h) s.cmd = .ok m := by
  rw [Yields, step_eq_evaluate_generate, evaluate_supported h]
  cases generate s.cfg (Config.two_le_of_supported h) s.cmd <;> simp

/-- In a supported block a step rejects for exactly the reason that `Gen` rejects for. -/
theorem step_rejects_iff {s : State} (h : s.cfg.Supported) (r : Rejection) :
    Rejects (step s) s r ↔ generate s.cfg (Config.two_le_of_supported h) s.cmd = .reject r := by
  rw [Rejects, step_eq_evaluate_generate, evaluate_supported h]
  cases generate s.cfg (Config.two_le_of_supported h) s.cmd <;> simp

theorem ports_of_yields {s : State} {m : Mask s.cfg.w} (h : s.cfg.Supported) (draw : Nat) (hm : Yields (step s) s m) :
    s.ports h draw = { mask := m, err := 0b000 } := by
  rw [State.ports, (step_yields_iff h m).mp hm]
  rfl

theorem ports_err_of_rejects {s : State} {r : Rejection} (h : s.cfg.Supported) (draw : Nat)
    (hr : Rejects (step s) s r) : (s.ports h draw).err = errCode r := by
  rw [State.ports, (step_rejects_iff h r).mp hr]
  rfl

/-- Settles O50: the ports and the step show the same outcome of `Gen`. -/
theorem portsShowTheOutcome : Obligations.PortsShowTheOutcome :=
  fun _ h draw => ⟨fun _ => ports_of_yields h draw, fun _ => ports_err_of_rejects h draw⟩

/-- R82: the code of a rejection is one of 1 to 4. -/
theorem errCode_range (r : Rejection) : errCode r ≠ acceptedCode ∧ (errCode r).toNat ≤ 4 := by
  cases r with
  | rangeConstraintViolation v => cases v <;> simp [errCode, acceptedCode]
  | illegalOperation op => simp [errCode, acceptedCode]

@[simp] theorem readPorts_settled_ok {w : Nat} (m : Mask w) (draw : Nat) :
    readPorts (settledPorts (.ok m) draw) = .mask m := if_pos rfl

@[simp] theorem readPorts_settled_reject {w : Nat} (r : Rejection) (draw : Nat) :
    readPorts (settledPorts (.reject r : GenOutcome w) draw) = .rejection (errCode r) := by
  obtain ⟨rejected, driven⟩ := errCode_range r
  simp [readPorts, settledPorts, rejected, driven]

/-- Settles O51: each of the two outcomes of `Gen` is read back from its port view. -/
theorem settledPortsReadAsTheOutcome : Obligations.SettledPortsReadAsTheOutcome := by
  intro s h draw
  simp only [step_yields_iff h, step_rejects_iff h, State.ports]
  cases generate s.cfg (Config.two_le_of_supported h) s.cmd with
  | ok m => simp [readPorts_settled_ok]
  | reject r => simp [readPorts_settled_reject]

/-! ### A step and the decoded command -/

/-- Settles O1: the word of an illegal operation is the one row of `Gen` that is no command's. -/
theorem stepRunsDecodedCommand : Obligations.StepRunsDecodedCommand := by
  refine ⟨fun s i hd => ?_, fun s op h hd => ?_⟩
  · rw [step_eq_evaluate_generate, exec_eq_evaluate_gen, ← hd]
    rfl
  · rw [step_rejects_iff h, generate, hd]
    rfl

end Sys2Proof.Machine
end

/-! # The memory statements: a block remembers nothing but its outputs (spec/20_memory.md R32) -/

section
namespace Sys2Proof.Machine

/-- Settles O44: the next state keeps the parameters and the command, and a step reads nothing else. -/
theorem evaluationIsIdempotent : Obligations.EvaluationIsIdempotent :=
  fun _ _ => step_eq_next_self

end Sys2Proof.Machine
end

/-! # The encoding statements: words, their fields and the commands they carry (spec/30_encoding.md R39 to R50) -/

section
namespace Sys2Proof

/-! ### A word is its fields -/

/-- R39: the number of a word from its fields. -/
theorem toNat_eq_wordNumber (cmd : CmdWord) :
    cmd.toNat = wordNumber (opField cmd).toNat (fieldB cmd) (fieldA cmd) := by
  rw [wordNumber, opField_toNat, fieldB_eq, fieldA_eq]
  omega

/-- Words with the same fields are the same word: `CMD16` has no other bits. -/
theorem eq_of_fields_eq {cmd cmd' : CmdWord} (hop : (opField cmd).toNat = (opField cmd').toNat)
    (hb : fieldB cmd = fieldB cmd') (ha : fieldA cmd = fieldA cmd') : cmd = cmd' :=
  BitVec.eq_of_toNat_eq (by rw [toNat_eq_wordNumber, toNat_eq_wordNumber cmd', hop, hb, ha])

/-- Settles O6: the formula, and the bits of each field as the ones it is extracted from. -/
theorem commandWordIsItsFields : Obligations.CommandWordIsItsFields := by
  refine fun cmd => ⟨toNat_eq_wordNumber cmd, fun k hk => ?_, fun k => ?_, fun k => ?_⟩
  · simp [opField, hk]
  · rw [fieldB, BitVec.testBit_toNat, BitVec.getLsbD_extractLsb', positionWidth]
  · rw [fieldA, BitVec.testBit_toNat, BitVec.getLsbD_extractLsb', positionWidth, Nat.zero_add]

theorem opField_and (cmd mask : CmdWord) : opField (cmd &&& mask) = opField cmd &&& opField mask :=
  BitVec.extractLsb'_and

theorem fieldA_and (cmd mask : CmdWord) : fieldA (cmd &&& mask) = fieldA cmd &&& fieldA mask := by
  rw [fieldA, BitVec.extractLsb'_and, BitVec.toNat_and]
  rfl

theorem fieldB_and (cmd mask : CmdWord) : fieldB (cmd &&& mask) = fieldB cmd &&& fieldB mask := by
  rw [fieldB, BitVec.extractLsb'_and, BitVec.toNat_and]
  rfl

theorem fieldA_and_full (cmd : CmdWord) : fieldA cmd &&& 63 = fieldA cmd :=
  (Nat.and_two_pow_sub_one_eq_mod _ 6).trans (Nat.mod_eq_of_lt (fieldA_lt cmd))

theorem fieldB_and_full (cmd : CmdWord) : fieldB cmd &&& 63 = fieldB cmd :=
  (Nat.and_two_pow_sub_one_eq_mod _ 6).trans (Nat.mod_eq_of_lt (fieldB_lt cmd))

/-- Every operation uses the whole field `OP` (R43). -/
theorem opField_and_usedBits (i : Instr) (cmd : CmdWord) : opField (cmd &&& i.usedBits) = opField cmd := by
  have whole : opField i.usedBits = BitVec.allOnes 4 := by
    cases i with
    | all | none | msb | butMsb | lsb | butLsb => decide
    | bit n | butBit n | upTo n | downTo n => exact (by decide : opField 0xF03F = BitVec.allOnes 4)
    | fromTo n1 n2 | butFromTo n1 n2 => exact (by decide : opField 0xFFFF = BitVec.allOnes 4)
  rw [opField_and, whole, BitVec.and_allOnes]

/-! ### Which command stands in a word -/

/-- The word carries the command: its opcode in `OP` and each position it takes in that position's field (R41, R42).
Nothing is asked of the fields that the operation ignores (R43). -/
def Instr.StandsIn (i : Instr) (cmd : CmdWord) : Prop :=
  (opField cmd).toNat = i.opcode ∧
    match i with
    | .all | .none | .msb | .butMsb | .lsb | .butLsb => True
    | .bit n | .butBit n | .upTo n | .downTo n => fieldA cmd = n
    | .fromTo n1 n2 | .butFromTo n1 n2 => fieldA cmd = n1 ∧ fieldB cmd = n2

/-- Every `OP` up to 0xB selects some operation. -/
theorem exists_standsIn {cmd : CmdWord} (h : (opField cmd).toNat ≤ 0xB) : ∃ i : Instr, i.StandsIn cmd := by
  generalize hop : (opField cmd).toNat = op at h
  match op, h with
  | 0x0, _ => exact ⟨.all, hop, trivial⟩
  | 0x1, _ => exact ⟨.none, hop, trivial⟩
  | 0x2, _ => exact ⟨.msb, hop, trivial⟩
  | 0x3, _ => exact ⟨.butMsb, hop, trivial⟩
  | 0x4, _ => exact ⟨.lsb, hop, trivial⟩
  | 0x5, _ => exact ⟨.butLsb, hop, trivial⟩
  | 0x6, _ => exact ⟨.bit _, hop, rfl⟩
  | 0x7, _ => exact ⟨.butBit _, hop, rfl⟩
  | 0x8, _ => exact ⟨.upTo _, hop, rfl⟩
  | 0x9, _ => exact ⟨.downTo _, hop, rfl⟩
  | 0xA, _ => exact ⟨.fromTo _ _, hop, rfl, rfl⟩
  | 0xB, _ => exact ⟨.butFromTo _ _, hop, rfl, rfl⟩

/-- R45, R47: what decoding answers for a word in which a command stands. -/
theorem Instr.StandsIn.decode_eq {i : Instr} {cmd : CmdWord} (h : i.StandsIn cmd) (has : Bool) :
    decode has cmd = if i.available has then .instr i else .illegal 0xB := by
  obtain ⟨hop, hfields⟩ := h
  cases i with
  | all | none | msb | butMsb | lsb | butLsb => simp [decode, hop, Instr.opcode, Instr.available]
  | bit n | butBit n | upTo n | downTo n => simp [decode, hop, Instr.opcode, Instr.available, hfields]
  | fromTo n1 n2 => simp [decode, hop, Instr.opcode, Instr.available, hfields]
  | butFromTo n1 n2 =>
    obtain ⟨ha, hb⟩ := hfields
    have selected : decode has cmd =
        if has then .instr (.butFromTo (fieldA cmd) (fieldB cmd)) else .illegal (opField cmd) := by
      simp [decode, hop, Instr.opcode]
    rw [selected, ha, hb, show opField cmd = 0xB from BitVec.eq_of_toNat_eq hop]
    rfl

/-- R44: a reserved `OP` selects no operation. -/
theorem decode_reserved {cmd : CmdWord} (h : 0xC ≤ (opField cmd).toNat) (has : Bool) :
    decode has cmd = .illegal (opField cmd) := by
  unfold decode
  split
  case h_13 => rfl
  all_goals omega

/-- R6: by default a block has every operation. -/
theorem available_true (i : Instr) : i.available true = true := by
  cases i <;> rfl

/-- All that it takes for a word to decode to a command. -/
theorem decode_eq_instr_iff {has : Bool} {cmd : CmdWord} {i : Instr} :
    decode has cmd = .instr i ↔ i.StandsIn cmd ∧ i.available has = true := by
  refine ⟨fun h => ?_, fun ⟨stands, available⟩ => by rw [stands.decode_eq, if_pos available]⟩
  rcases Nat.lt_or_ge 0xB (opField cmd).toNat with hop | hop
  · cases (decode_reserved hop has).symm.trans h
  · obtain ⟨j, stands⟩ := exists_standsIn hop
    rw [stands.decode_eq] at h
    split at h
    · next available =>
      cases h
      exact ⟨stands, available⟩
    · cases h

/-- A command stands in a word by the bits that it uses alone (R43). -/
theorem standsIn_and_usedBits {i : Instr} {cmd : CmdWord} : i.StandsIn (cmd &&& i.usedBits) ↔ i.StandsIn cmd := by
  have positionA : fieldA 0xF03F#16 = 63 := by decide
  have bothA : fieldA 0xFFFF#16 = 63 := by decide
  have bothB : fieldB 0xFFFF#16 = 63 := by decide
  unfold Instr.StandsIn
  rw [opField_and_usedBits]
  cases i <;> simp [Instr.usedBits, fieldA_and, fieldB_and, positionA, bothA, bothB, fieldA_and_full, fieldB_and_full]

/-! ### Encoding -/

theorem encodedFields (i : Instr) : Laws.EncodedFields.Statement i := by
  cases i with
  | all => exact Laws.EncodedFields.all
  | none => exact Laws.EncodedFields.none
  | msb => exact Laws.EncodedFields.msb
  | butMsb => exact Laws.EncodedFields.butMsb
  | lsb => exact Laws.EncodedFields.lsb
  | butLsb => exact Laws.EncodedFields.butLsb
  | bit n => exact Laws.EncodedFields.bit n
  | butBit n => exact Laws.EncodedFields.butBit n
  | upTo n => exact Laws.EncodedFields.upTo n
  | downTo n => exact Laws.EncodedFields.downTo n
  | fromTo n1 n2 => exact Laws.EncodedFields.fromTo n1 n2
  | butFromTo n1 n2 => exact Laws.EncodedFields.butFromTo n1 n2

theorem standsIn_encode {i : Instr} (h : i.wellFormed = true) : i.StandsIn (encode i) := by
  obtain ⟨hop, hb, ha⟩ := encodedFields i h
  refine ⟨hop, ?_⟩
  cases i with
  | all | none | msb | butMsb | lsb | butLsb => trivial
  | bit n | butBit n | upTo n | downTo n => exact ha
  | fromTo n1 n2 | butFromTo n1 n2 => exact ⟨ha, hb⟩

/-- Settles O3: a well-formed command stands in its encoding. -/
theorem decodeEncodeRoundTrip : Obligations.DecodeEncodeRoundTrip :=
  fun has _ h => (standsIn_encode h).decode_eq has

/-- R50: what can be encoded, in terms of the two operand values. -/
theorem wellFormed_iff (i : Instr) : i.wellFormed = true ↔ i.operandA ≤ 63 ∧ i.operandB ≤ 63 := by
  cases i <;> simp [Instr.wellFormed, Instr.operandA, Instr.operandB, fitsField_iff, Nat.lt_succ_iff]

/-- With its ignored fields cleared, a word holds exactly the operand values that R50 encodes. -/
theorem Instr.StandsIn.operands_eq {i : Instr} {cmd : CmdWord} (h : i.StandsIn cmd) :
    fieldA (cmd &&& i.usedBits) = i.operandA ∧ fieldB (cmd &&& i.usedBits) = i.operandB := by
  obtain ⟨-, hfields⟩ := standsIn_and_usedBits.mpr h
  have noB (u : CmdWord) (hu : fieldB u = 0) : fieldB (cmd &&& u) = 0 := by rw [fieldB_and, hu, Nat.and_zero]
  have noA (u : CmdWord) (hu : fieldA u = 0) : fieldA (cmd &&& u) = 0 := by rw [fieldA_and, hu, Nat.and_zero]
  cases i with
  | all | none | msb | butMsb | lsb | butLsb => exact ⟨noA 0xF000 (by decide), noB 0xF000 (by decide)⟩
  | bit n | butBit n | upTo n | downTo n => exact ⟨hfields, noB 0xF03F (by decide)⟩
  | fromTo n1 n2 | butFromTo n1 n2 => exact hfields

theorem Instr.StandsIn.wellFormed {i : Instr} {cmd : CmdWord} (h : i.StandsIn cmd) : i.wellFormed = true := by
  obtain ⟨ha, hb⟩ := h.operands_eq
  rw [wellFormed_iff, ← ha, ← hb]
  exact ⟨Nat.le_of_lt_succ (fieldA_lt _), Nat.le_of_lt_succ (fieldB_lt _)⟩

theorem Instr.StandsIn.encode_eq {i : Instr} {cmd : CmdWord} (h : i.StandsIn cmd) : encode i = cmd &&& i.usedBits := by
  obtain ⟨hop, hb, ha⟩ := encodedFields i h.wellFormed
  obtain ⟨ha', hb'⟩ := h.operands_eq
  obtain ⟨hop', -⟩ := standsIn_and_usedBits.mpr h
  exact eq_of_fields_eq (hop.trans hop'.symm) (hb.trans hb'.symm) (ha.trans ha'.symm)

/-- Settles O4: such a command stands in the word, and all three facts follow from that. -/
theorem encodingOfDecodedKeepsUsedFields : Obligations.EncodingOfDecodedKeepsUsedFields := by
  intro has cmd i h
  obtain ⟨stands, available⟩ := decode_eq_instr_iff.mp h
  exact ⟨stands.wellFormed, available, stands.encode_eq⟩

/-! ### The opcode map -/

/-- The rows that match each `OP`, over the words with cleared fields. -/
theorem matchingRows_opcodeWord :
    ∀ op < 16, matchingRows (BitVec.ofNat 16 (wordNumber op 0 0)) = (opcodeTable[op]?).toList := by decide

/-- Every row of the map looks at `OP` only, so the rows a word matches are those of its `OP`. -/
theorem matchingRows_eq (cmd : CmdWord) : matchingRows cmd = (opcodeTable[(opField cmd).toNat]?).toList := by
  have opOnly : cmd &&& 0xF000 = BitVec.ofNat 16 (wordNumber (opField cmd).toNat 0 0) := by
    obtain ⟨hop, hb, ha⟩ := fields_of_wordNumber (opField cmd).isLt (b := 0) (by decide) (a := 0) (by decide)
    refine eq_of_fields_eq ?_ ?_ ?_
    · rw [hop]
      exact congrArg BitVec.toNat (opField_and_usedBits .all cmd)
    · rw [hb, fieldB_and, show fieldB (0xF000 : CmdWord) = 0 by decide, Nat.and_zero]
    · rw [ha, fieldA_and, show fieldA (0xF000 : CmdWord) = 0 by decide, Nat.and_zero]
  have masked : matchingRows cmd = matchingRows (cmd &&& 0xF000) := by
    refine List.filter_congr fun row hrow => ?_
    have mask : row.2.2 = 0xF000 := by
      revert row
      decide
    rw [rowMatches, rowMatches, mask, BitVec.and_assoc, BitVec.and_self]
  rw [masked, opOnly, matchingRows_opcodeWord _ (opField cmd).isLt]

/-- The row of the opcode map at a command's opcode is the one with its mnemonic. -/
theorem opcodeTable_row (i : Instr) : ∃ row, opcodeTable[i.opcode]? = some row ∧ row.1 = i.mnemonic := by
  cases i <;> exact ⟨_, rfl, rfl⟩

/-- Settles O5: the rows of a word are those at its `OP`, and so is the command that stands in it. -/
theorem commandMatchesExactlyOneRow : Obligations.CommandMatchesExactlyOneRow := by
  refine fun cmd => ⟨fun h => ?_, fun h => ⟨?_, decode_reserved h true⟩⟩
  · obtain ⟨i, stands⟩ := exists_standsIn h
    have opcode : (opField cmd).toNat = i.opcode := stands.1
    obtain ⟨row, atOpcode, named⟩ := opcodeTable_row i
    refine ⟨i, row, decode_eq_instr_iff.mpr ⟨stands, available_true i⟩, ?_, named, opcode.symm⟩
    rw [matchingRows_eq, opcode, atOpcode]
    rfl
  · have beyond : opcodeTable.length ≤ (opField cmd).toNat := h
    rw [matchingRows_eq, List.getElem?_eq_none beyond]
    rfl

/-- Settles O2: each word is evaluated. -/
theorem sampleWordsDecode : Obligations.SampleWordsDecode := by
  unfold Obligations.SampleWordsDecode
  decide

end Sys2Proof

namespace Sys2Proof.Machine

/-! ### Steps at words with ignored, reserved and absent operations -/

/-- A block's outcome depends on what the word decodes to, and on nothing else of the word. -/
theorem sameOutcome_of_decode_eq {s : State} {cmd cmd' : CmdWord}
    (h : decode s.cfg.hasButFromTo cmd = decode s.cfg.hasButFromTo cmd') : SameOutcome s cmd cmd' := by
  by_cases hs : s.cfg.Supported
  · have hw := Config.two_le_of_supported hs
    have same : generate s.cfg hw cmd = generate s.cfg hw cmd' := by rw [generate, generate, h]
    refine ⟨fun m => ?_, fun r => ?_⟩
    · refine (step_yields_iff (s := s.present cmd) hs m).trans ?_
      exact same ▸ (step_yields_iff (s := s.present cmd') hs m).symm
    · refine (step_rejects_iff (s := s.present cmd) hs r).trans ?_
      exact same ▸ (step_rejects_iff (s := s.present cmd') hs r).symm
  · have refused (c : CmdWord) : step (s.present c) = .refused (.typeConstraintViolation s.cfg.w) := by
      rw [step_eq_evaluate_generate]
      exact evaluate_unsupported (s := s.present c) hs _
    simp [SameOutcome, Yields, Rejects, refused]

/-- R43: the command that stands in a word stands in every word that differs in fields it ignores only. -/
theorem standsIn_of_ignored {i : Instr} {cmd cmd' : CmdWord} (stands : i.StandsIn cmd)
    (hop : opField cmd = opField cmd')
    (h : (opField cmd).toNat ≤ 0x5 ∨ ((opField cmd).toNat ≤ 0x9 ∧ fieldA cmd = fieldA cmd')) : i.StandsIn cmd' := by
  obtain ⟨opcode, fields⟩ := stands
  rw [opcode] at h
  refine ⟨hop ▸ opcode, ?_⟩
  cases i with
  | all | none | msb | butMsb | lsb | butLsb => trivial
  | bit n | butBit n | upTo n | downTo n =>
    obtain h | ⟨-, hA⟩ := h
    · exact absurd h (by simp [Instr.opcode])
    · exact hA ▸ fields
  | fromTo n1 n2 | butFromTo n1 n2 => exact absurd h (by simp [Instr.opcode])

/-- Settles O7: one command stands in both words, so both decode to the same. -/
theorem ignoredFieldsChangeNothing : Obligations.IgnoredFieldsChangeNothing := by
  intro s cmd cmd' hop h
  obtain ⟨i, stands⟩ := exists_standsIn (cmd := cmd) (by omega)
  exact sameOutcome_of_decode_eq
    ((stands.decode_eq _).trans ((standsIn_of_ignored stands hop h).decode_eq _).symm)

/-- R44, R47: a step at a word that decodes to no operation is rejected for it. -/
theorem step_rejects_illegal {s : State} {op : OpField} (h : s.cfg.Supported)
    (hd : decode s.cfg.hasButFromTo s.cmd = .illegal op) : Rejects (step s) s (.illegalOperation op) := by
  obtain ⟨-, illegal⟩ := stepRunsDecodedCommand
  exact illegal s op h hd

/-- Settles O8: decoding looks at no field of a reserved word but `OP`. -/
theorem reservedOperationsAreRejected : Obligations.ReservedOperationsAreRejected :=
  fun _ h hop => step_rejects_illegal h (decode_reserved hop _)

/-- Settles O9: `but_from_to` of the fields stands in the word, and decoding asks the parameter. -/
theorem butFromToFollowsItsParameter : Obligations.ButFromToFollowsItsParameter := by
  intro s h hop
  have stands : (Instr.butFromTo (fieldA s.cmd) (fieldB s.cmd)).StandsIn s.cmd := ⟨by rw [hop]; rfl, rfl, rfl⟩
  have decoded := stands.decode_eq s.cfg.hasButFromTo
  refine ⟨fun absent => step_rejects_illegal h ?_, fun present => ?_⟩
  · simpa [absent, Instr.available] using decoded
  · simpa [present, Instr.available] using decoded

/-! ### The meaning of a command, by its closed form and its causes -/

/-- All that a command can do in a supported block: the mask of its closed form if it is legal, else a rejection for a
cause it meets. -/
theorem exec_cases {s : State} (h : s.cfg.Supported) (i : Instr) :
    (Legal s.cfg i ∧ YieldsBits (exec i s) s fun k => selects s.cfg.w i k = true) ∨
    (∃ r, RejectedFor s.cfg i r ∧ Rejects (exec i s) s r) := by
  have outcome := gen_outcomeFor s.cfg (Config.two_le_of_supported h) i
  rw [exec_eq_evaluate_gen, evaluate_supported h]
  cases hg : gen s.cfg (Config.two_le_of_supported h) (.instr i) with
  | ok m =>
    rw [hg] at outcome
    obtain ⟨legal, bits⟩ := outcome
    exact .inl ⟨legal, m, rfl, fun k hk => by rw [bits k hk]⟩
  | reject r =>
    rw [hg] at outcome
    exact .inr ⟨r, outcome, rfl⟩

/-- R88: a legal range meets no cause of R82. -/
theorem not_rangeRejectedFor {w n1 n2 : Nat} {r : Rejection} (h : n1 < n2) (h2 : n2 < w) :
    ¬ RangeRejectedFor w n1 n2 r := by
  rintro (⟨hw, -⟩ | ⟨-, hw, -⟩ | ⟨-, -, hw, -⟩) <;> omega

/-- R88: a legal command meets no cause of R82. -/
theorem Legal.not_rejectedFor {c : Config} {i : Instr} {r : Rejection} (legal : Legal c i) : ¬ RejectedFor c i r := by
  intro rejected
  cases i with
  | all | none | msb | butMsb | lsb | butLsb => exact rejected
  | bit n | butBit n | upTo n | downTo n => exact Nat.not_lt_of_le rejected.1 legal
  | fromTo n1 n2 => exact not_rangeRejectedFor legal.1 legal.2 rejected
  | butFromTo n1 n2 =>
    obtain ⟨present, ascending, below⟩ := legal
    obtain ⟨absent, -⟩ | ⟨-, range⟩ := rejected
    · cases absent.symm.trans present
    · exact not_rangeRejectedFor ascending below range

/-- A command of a supported block that is not legal is rejected for a cause it meets. -/
theorem exec_rejects_of_not_legal {s : State} {i : Instr} (h : s.cfg.Supported) (illegal : ¬ Legal s.cfg i) :
    ∃ r, RejectedFor s.cfg i r ∧ Rejects (exec i s) s r := by
  obtain ⟨legal, -⟩ | rejected := exec_cases h i
  · exact absurd legal illegal
  · exact rejected

theorem exec_yields_of_legal {s : State} {i : Instr} (h : s.cfg.Supported) (legal : Legal s.cfg i) :
    YieldsBits (exec i s) s fun k => selects s.cfg.w i k = true := by
  obtain ⟨-, yields⟩ | ⟨r, rejected, -⟩ := exec_cases h i
  · exact yields
  · exact absurd rejected legal.not_rejectedFor

/-- Settles O39: a rejection is no next state, and a legal command has one. -/
theorem maskExactlyWhenLegal : Obligations.MaskExactlyWhenLegal := by
  refine fun s i h => ⟨⟨fun ⟨t, answered⟩ => ?_, fun legal => ?_⟩, fun illegal => ?_⟩
  · obtain ⟨legal, -⟩ | ⟨r, -, rejects⟩ := exec_cases h i
    · exact legal
    · cases rejects.symm.trans answered
  · obtain ⟨m, yields, -⟩ := exec_yields_of_legal h legal
    exact ⟨_, yields⟩
  · obtain ⟨r, rejected, rejects⟩ := exec_rejects_of_not_legal h illegal
    exact ⟨r, rejects, rejected⟩

/-- A step at a word that decodes to a command runs it. -/
theorem step_eq_exec {s : State} {i : Instr} (hd : decode s.cfg.hasButFromTo s.cmd = .instr i) : step s = exec i s := by
  obtain ⟨runs, -⟩ := stepRunsDecodedCommand
  exact runs s i hd

/-- Settles O41: the two ways a command can end, and a step as the command it decodes to. -/
theorem everyCommandMeetsItsClosedForm : Obligations.EveryCommandMeetsItsClosedForm := by
  refine ⟨fun s i h => ⟨exec_yields_of_legal h, exec_rejects_of_not_legal h⟩, fun s i h hd legal => ?_⟩
  rw [step_eq_exec hd]
  exact exec_yields_of_legal h legal

/-- Settles O38: without the operation, its row of `Gen` is the one rejection. -/
theorem absentButFromToMeaningRejects : Obligations.AbsentButFromToMeaningRejects := by
  intro s n1 n2 r h absent
  have rejects : exec (.butFromTo n1 n2) s = .fault (.rejected (.illegalOperation 0xB) s.cmd) := by
    rw [exec_butFromTo, evaluate_supported h]
    simp [absent]
  simp [Rejects, rejects, eq_comm]

end Sys2Proof.Machine
end

/-! # The text statements: lines that are assembled and words that are printed (spec/30_encoding.md R49 to R52) -/

section
namespace Sys2Proof.Machine

/-! ### A line of one word, or of one word and a rest -/

/-- What may follow the first word of a printed line: some text without a comment, and with no blank at either end. -/
structure Tidy (t : Text) : Prop where
  ne_nil : t ≠ []
  noComment : ∀ c ∈ t, c ≠ ';'
  first : ∀ c ∈ t.head?, isBlank c = false
  last : ∀ c ∈ t.getLast?, isBlank c = false

theorem tidy_of_plain {t : Text} (hne : t ≠ []) (hp : ∀ c ∈ t, plain c = true) : Tidy t where
  ne_nil := hne
  noComment _ hc := (plain_of_mem hp hc).2.2
  first _ hc := (plain_of_mem hp (List.mem_of_mem_head? hc)).1
  last _ hc := (plain_of_mem hp (List.mem_of_mem_getLast? hc)).1

/-- Two tidy texts with anything between them that starts no comment. -/
theorem Tidy.append {t u : Text} (ht : Tidy t) (hu : Tidy u) {between : Text} (h : ∀ c ∈ between, c ≠ ';') :
    Tidy (t ++ between ++ u) where
  ne_nil := by simp [ht.ne_nil]
  noComment c hc := by
    rw [List.mem_append, List.mem_append] at hc
    obtain (hc | hc) | hc := hc
    · exact ht.noComment c hc
    · exact h c hc
    · exact hu.noComment c hc
  first c hc := by
    rw [List.append_assoc, List.head?_append_of_ne_nil _ ht.ne_nil] at hc
    exact ht.first c hc
  last c hc := by
    rw [List.getLast?_append_of_ne_nil _ hu.ne_nil] at hc
    exact hu.last c hc

theorem dropComment_eq_self {t : Text} (h : ∀ c ∈ t, c ≠ ';') : dropComment t = t :=
  List.takeWhile_eq_self_iff.mpr fun c hc => by simp [h c hc]

theorem Tidy.body_eq {t : Text} (h : Tidy t) : trim (dropComment t) = t := by
  rw [dropComment_eq_self h.noComment, trim_eq_self h.first h.last]

theorem trim_nil : trim [] = [] := rfl

theorem isBlank_space : isBlank ' ' = true := rfl

/-- A plain word alone on its line. -/
theorem assembleLine_word {head : Text} (hne : head ≠ []) (hp : ∀ c ∈ head, plain c = true) :
    assembleLine head = assembleWords head [] := by
  have nonblank : ∀ c ∈ head, (!isBlank c) = true := fun c hc => by simp [(plain_of_mem hp hc).1]
  have firstWord : head.takeWhile (fun c => !isBlank c) = head := List.takeWhile_eq_self_iff.mpr nonblank
  have noRest : head.dropWhile (fun c => !isBlank c) = [] := List.dropWhile_eq_nil_iff.mpr nonblank
  simp [assembleLine, (tidy_of_plain hne hp).body_eq, hne, firstWord, noRest, trim_nil]

/-- A plain word, one blank, and a tidy rest. -/
theorem assembleLine_word_rest {head rest : Text} (hne : head ≠ []) (hp : ∀ c ∈ head, plain c = true)
    (hrest : Tidy rest) : assembleLine (head ++ ' ' :: rest) = assembleWords head rest := by
  have nonblank : ∀ c ∈ head, (!isBlank c) = true := fun c hc => by simp [(plain_of_mem hp hc).1]
  have tidy : Tidy (head ++ ' ' :: rest) := by
    simpa using (tidy_of_plain hne hp).append hrest (between := [' ']) (by simp)
  have firstWord : (head ++ ' ' :: rest).takeWhile (fun c => !isBlank c) = head := by
    simp [List.takeWhile_append_of_pos nonblank, isBlank_space]
  have afterIt : (head ++ ' ' :: rest).dropWhile (fun c => !isBlank c) = ' ' :: rest := by
    simp [List.dropWhile_append_of_pos nonblank, isBlank_space]
  simp [assembleLine, tidy.body_eq, firstWord, afterIt, trim_blank_cons, trim_eq_self hrest.first hrest.last]

/-! ### The line of a command -/

theorem mnemonic_toList (i : Instr) : i.mnemonic.toList = mnemonicText i := by
  cases i <;> simp [Instr.mnemonic, mnemonicText]

theorem mnemonicText_ne_nil (i : Instr) : mnemonicText i ≠ [] := by
  cases i <;> simp [mnemonicText]

theorem plain_mnemonicText (i : Instr) : ∀ c ∈ mnemonicText i, plain c = true := by
  cases i <;> simp [mnemonicText, plain, isBlank]

/-- The names of directives start with a dot, and no mnemonic has one. -/
theorem dot_not_mem_mnemonicText (i : Instr) : '.' ∉ mnemonicText i := by
  cases i <;> simp [mnemonicText]

/-- The words of a line that names a command: R50's check decides whether it is assembled. -/
theorem assembleWords_command {i j : Instr} {rest : Text} {operands : List Nat}
    (read : numbers? (operandTexts rest) = some operands)
    (named : namedCommand? (mnemonicText j) operands = some i) :
    assembleWords (mnemonicText j) rest = if i.wellFormed then .command i else .operandTooWide := by
  have noDirective {t : Text} (dot : '.' ∈ t) : (mnemonicText j == t) = false :=
    beq_eq_false_iff_ne.mpr fun same => dot_not_mem_mnemonicText j (same ▸ dot)
  simp [assembleWords, noDirective, read, named]

/-- The position operands of a command, in the source's order (R41). -/
def operandsOf : Instr → List Nat
  | .all | .none | .msb | .butMsb | .lsb | .butLsb => []
  | .bit n | .butBit n | .upTo n | .downTo n => [n]
  | .fromTo n1 n2 | .butFromTo n1 n2 => [n1, n2]

theorem namedCommand_operandsOf (i : Instr) : namedCommand? (mnemonicText i) (operandsOf i) = some i := by
  cases i <;> rfl

theorem tidy_decimal (n : Nat) : Tidy (decimal n) := by
  obtain ⟨hne, hchars⟩ := decimal_chars n
  exact tidy_of_plain hne fun c hc => (hchars c hc).1

/-- The line written for a command is read as that command, if R50's check passes it. -/
theorem assembleLine_commandText (i : Instr) :
    assembleLine (commandText i) = if i.wellFormed then .command i else .operandTooWide := by
  have hne := mnemonicText_ne_nil i
  have hp := plain_mnemonicText i
  have named := namedCommand_operandsOf i
  cases i with
  | all | none | msb | butMsb | lsb | butLsb => exact (assembleLine_word hne hp).trans (assembleWords_command rfl named)
  | bit n | butBit n | upTo n | downTo n =>
    exact (assembleLine_word_rest hne hp (tidy_decimal n)).trans (assembleWords_command (numbers_one n) named)
  | fromTo n1 n2 | butFromTo n1 n2 =>
    have tidy : Tidy (decimal n1 ++ [',', ' '] ++ decimal n2) := (tidy_decimal n1).append (tidy_decimal n2) (by simp)
    exact (assembleLine_word_rest hne hp tidy).trans (assembleWords_command (numbers_two n1 n2) named)

/-- R50: a rejected line has no word, and no program goes on with it. -/
theorem operandTooWide_rejected {line : Text} (h : assembleLine line = .operandTooWide) :
    (assembleLine line).encoded = none ∧ ∀ (p : Program) (lines : List Text), p.addText (line :: lines) = none := by
  refine ⟨by rw [h]; rfl, fun p lines => ?_⟩
  rw [Program.addText, h]
  rfl

/-- Settles O54: the words that a line is cut into name the command, whose check fails. -/
theorem lineWithWideOperandIsRejected : Obligations.LineWithWideOperandIsRejected := by
  have words (i : Instr) (rest : Text) (operands : List Nat) (read : numbers? (operandTexts rest) = some operands)
      (named : namedCommand? (mnemonicText i) operands = some i) (wide : i.wellFormed = false) :
      assembleWords (mnemonicText i) rest = .operandTooWide := by
    rw [assembleWords_command read named, wide]
    rfl
  refine ⟨words, fun i line operands cut read named wide => ?_⟩
  have nonempty : (trim (dropComment line)).isEmpty = false := by
    rw [List.isEmpty_eq_false_iff]
    intro empty
    rw [empty] at cut
    exact mnemonicText_ne_nil i cut.symm
  have tooWide : assembleLine line = .operandTooWide := by
    simp [assembleLine, nonempty, cut, words i _ operands read named wide]
  exact ⟨tooWide, operandTooWide_rejected tooWide⟩

/-! ### The assembler's encoding -/

theorem encodeChecked_of_wellFormed {i : Instr} (h : i.wellFormed = true) : encodeChecked i = some (encode i) := if_pos h

theorem encodeChecked_of_not_wellFormed {i : Instr} (h : i.wellFormed = false) : encodeChecked i = none := by
  simp [encodeChecked, h]

theorem encode_toNat {i : Instr} (h : i.wellFormed = true) :
    (encode i).toNat = i.opcode * 4096 + i.operandB * 64 + i.operandA := by
  obtain ⟨hop, hb, ha⟩ := encodedFields i h
  rw [toNat_eq_wordNumber, hop, hb, ha, wordNumber]

/-- R84: a legal command has no operand of W or more. -/
theorem Legal.operands_lt {c : Config} {i : Instr} (hw : 2 ≤ c.w) (legal : Legal c i) :
    i.operandA < c.w ∧ i.operandB < c.w := by
  have positive : 0 < c.w := by omega
  cases i with
  | all | none | msb | butMsb | lsb | butLsb => exact ⟨positive, positive⟩
  | bit n | butBit n | upTo n | downTo n => exact ⟨legal, positive⟩
  | fromTo n1 n2 =>
    obtain ⟨ascending, below⟩ := legal
    exact ⟨ascending.trans below, below⟩
  | butFromTo n1 n2 =>
    obtain ⟨-, ascending, below⟩ := legal
    exact ⟨ascending.trans below, below⟩

/-- R50, R84: an operand that a word can carry and the block cannot use is the block's to reject. -/
theorem step_rejects_wide_operand {s : State} {i : Instr} (h : s.cfg.Supported) (stands : i.StandsIn s.cmd)
    (wide : s.cfg.w ≤ i.operandA ∨ s.cfg.w ≤ i.operandB) : ∃ r, Rejects (step s) s r := by
  have decoded := stands.decode_eq s.cfg.hasButFromTo
  split at decoded
  · have illegal : ¬ Legal s.cfg i := fun legal => by
      obtain ⟨hA, hB⟩ := legal.operands_lt (Config.two_le_of_supported h)
      omega
    obtain ⟨r, -, rejects⟩ := exec_rejects_of_not_legal h illegal
    exact ⟨r, (step_eq_exec decoded).trans rejects⟩
  · exact ⟨_, step_rejects_illegal h decoded⟩

/-- Settles O53: a well-formed command stands in its encoding, and the line of any other is rejected. -/
theorem assemblerEncodesByFormula : Obligations.AssemblerEncodesByFormula := by
  refine ⟨fun i h => ?_, fun i => ⟨wellFormed_iff i, encodeChecked_of_not_wellFormed⟩, fun i wide => ?_,
    fun s i h wellFormed wide cmd => step_rejects_wide_operand h (cmd ▸ standsIn_encode wellFormed) wide⟩
  · have encoded := encodeChecked_of_wellFormed h
    exact ⟨encoded, encoded, encode_toNat h, decode_eq_instr_iff.mpr ⟨standsIn_encode h, available_true i⟩⟩
  · have tooWide : assembleLine (commandText i) = .operandTooWide := by
      rw [assembleLine_commandText, wide]
      rfl
    exact ⟨tooWide, operandTooWide_rejected tooWide⟩

/-! ### Printing -/

theorem disassemble_instr {has : Bool} {cmd : CmdWord} {i : Instr} (h : decode has cmd = .instr i) :
    disassemble has cmd = commandText i := by
  simp [disassemble, h]

/-- Settles O55: a word prints as the command that stands in it, and that is settled by the bits the command uses. -/
theorem printedCommandIsReadBack : Obligations.PrintedCommandIsReadBack := by
  refine ⟨fun has cmd i h => ?_, fun has cmd cmd' i h sameUsed => ?_, fun has cmd i h => ?_⟩
  · rw [disassemble_instr h, commandText, mnemonic_toList]
    cases i <;> rfl
  · obtain ⟨stands, available⟩ := decode_eq_instr_iff.mp h
    have stands' : i.StandsIn cmd' := by
      rw [← standsIn_and_usedBits, ← sameUsed]
      exact standsIn_and_usedBits.mpr stands
    rw [disassemble_instr h, disassemble_instr (decode_eq_instr_iff.mpr ⟨stands', available⟩)]
  · obtain ⟨stands, -⟩ := decode_eq_instr_iff.mp h
    rw [disassemble_instr h, assembleLine_commandText, if_pos stands.wellFormed]

theorem hexDigit_hexChar : ∀ d < 16, hexDigit? (hexChar d) = some d := by decide

theorem plain_hexChar : ∀ d < 16, plain (hexChar d) = true := by decide

/-- Reading the four digits of a word gives its number. -/
theorem number_hexWord (cmd : CmdWord) : number? ('0' :: 'x' :: hexWord cmd) = some cmd.toNat := by
  have highest : cmd.toNat / 4096 < 16 := by
    have := cmd.isLt
    omega
  have digit (n : Nat) : hexDigit? (hexChar (n % 16)) = some (n % 16) := hexDigit_hexChar _ (Nat.mod_lt n (by decide))
  simp [number?, hexWord, digits?, hexDigit_hexChar _ highest, digit]
  omega

theorem plain_hexWord (cmd : CmdWord) : ∀ c ∈ '0' :: 'x' :: hexWord cmd, plain c = true := by
  have highest : cmd.toNat / 4096 < 16 := by
    have := cmd.isLt
    omega
  have digit (n : Nat) : plain (hexChar (n % 16)) = true := plain_hexChar _ (Nat.mod_lt n (by decide))
  simp only [hexWord, List.forall_mem_cons, plain_hexChar _ highest, digit]
  simp [plain, isBlank]

/-- Settles O56: the line is the directive's name and the four digits of the word. -/
theorem printedReservedWordIsReadBack : Obligations.PrintedReservedWordIsReadBack := by
  intro has cmd op h
  have printed : disassemble has cmd = ".illegal".toList ++ ' ' :: '0' :: 'x' :: hexWord cmd := by
    simp [disassemble, h]
  have tidy : Tidy ('0' :: 'x' :: hexWord cmd) := tidy_of_plain (List.cons_ne_nil _ _) (plain_hexWord cmd)
  have name : ∀ c ∈ ".illegal".toList, plain c = true := by simp [plain, isBlank]
  rw [printed, assembleLine_word_rest (by decide) name tidy]
  simp [assembleWords, number_hexWord, cmd.isLt]

/-! ### Directives -/

/-- R49: a program of one `.but_from_to` directive and the line of a command. -/
theorem assemble_directive_command {directive : Text} {on : Bool} (read : assembleLine directive = .butFromTo on)
    {i : Instr} (h : i.wellFormed = true) :
    assemble [directive, commandText i] = some { width := none, butFromTo := some on, words := [encode i] } := by
  simp [assemble, Program.addText, Program.addLine, read, assembleLine_commandText, h, encodeChecked_of_wellFormed]

/-- Settles O57: both lines are read as the directive, and without the operation decoding rejects its word. -/
theorem directiveDoesNotChangeEncoding : Obligations.DirectiveDoesNotChangeEncoding := by
  refine ⟨fun i h => ⟨assemble_directive_command (by decide) h, assemble_directive_command (by decide) h⟩,
    fun s n1 n2 h absent h1 h2 cmd => step_rejects_illegal h ?_⟩
  have stands : (Instr.butFromTo n1 n2).StandsIn s.cmd := cmd ▸ standsIn_encode ((wellFormed_iff _).mpr ⟨h1, h2⟩)
  rw [stands.decode_eq, absent]
  rfl

end Sys2Proof.Machine
end

/-! # The primitive mask statements: commands that take no position (spec/40_primitive_masks.md R53 to R60) -/

section
namespace Sys2Proof.Machine

/-! ### Commands of OP 0x0 to 0x5 -/

/-- R60: a command of OP 0x0 to 0x5 takes no position, so there is nothing for which it could be rejected. -/
theorem legal_of_opcode_le_five {i : Instr} (primitive : i.opcode ≤ 0x5) (c : Config) : Legal c i := by
  cases i with
  | all | none | msb | butMsb | lsb | butLsb => trivial
  | bit n | butBit n | upTo n | downTo n => exact absurd primitive (by simp [Instr.opcode])
  | fromTo n1 n2 | butFromTo n1 n2 => exact absurd primitive (by simp [Instr.opcode])

/-- R43, R45: a command of OP 0x0 to 0x5 is decoded by its `OP` alone, in every block. -/
theorem decode_of_opcode_le_five {i : Instr} (primitive : i.opcode ≤ 0x5) {op : OpField} (hop : op.toNat = i.opcode)
    (has : Bool) (cmd : CmdWord) (h : opField cmd = op) : decode has cmd = .instr i := by
  subst h
  refine decode_eq_instr_iff.mpr ?_
  cases i with
  | all | none | msb | butMsb | lsb | butLsb => exact ⟨⟨hop, trivial⟩, rfl⟩
  | bit n | butBit n | upTo n | downTo n => exact absurd primitive (by simp [Instr.opcode])
  | fromTo n1 n2 | butFromTo n1 n2 => exact absurd primitive (by simp [Instr.opcode])

/-- Settles O17: some command stands in the word, and one of OP 0x0 to 0x5 is legal whatever the fields hold. -/
theorem primitiveMasksAreNeverRejected : Obligations.PrimitiveMasksAreNeverRejected := by
  intro s h hop
  obtain ⟨i, opcode, -⟩ := exists_standsIn (cmd := s.cmd) (by omega)
  have primitive : i.opcode ≤ 0x5 := opcode ▸ hop
  rw [step_eq_exec (decode_of_opcode_le_five primitive opcode _ _ rfl)]
  obtain ⟨m, yields, -⟩ := exec_yields_of_legal h (legal_of_opcode_le_five primitive s.cfg)
  exact ⟨m, yields⟩

/-! ### The masks that they answer -/

/-- In a supported block a command yields the mask of its row of `Gen`. -/
theorem exec_yields_of_gen {s : State} {i : Instr} {m : Mask s.cfg.w} (h : s.cfg.Supported)
    (answered : gen s.cfg (Config.two_le_of_supported h) (.instr i) = .ok m) : Yields (exec i s) s m := by
  rw [Yields, exec_eq_evaluate_gen, evaluate_supported h, answered, report_ok]

theorem exec_all_yields {s : State} (h : s.cfg.Supported) : Yields (exec .all s) s (~~~ 0#s.cfg.w) :=
  exec_yields_of_gen h rfl

theorem exec_none_yields {s : State} (h : s.cfg.Supported) : Yields (exec .none s) s 0#s.cfg.w :=
  exec_yields_of_gen h rfl

theorem exec_msb_yields {s : State} (h : s.cfg.Supported) : Yields (exec .msb s) s (1#s.cfg.w <<< (s.cfg.w - 1)) :=
  exec_yields_of_gen h rfl

theorem exec_butMsb_yields {s : State} (h : s.cfg.Supported) :
    Yields (exec .butMsb s) s (~~~ (1#s.cfg.w <<< (s.cfg.w - 1))) :=
  exec_yields_of_gen h rfl

theorem exec_lsb_yields {s : State} (h : s.cfg.Supported) : Yields (exec .lsb s) s 1#s.cfg.w :=
  exec_yields_of_gen h rfl

theorem exec_butLsb_yields {s : State} (h : s.cfg.Supported) : Yields (exec .butLsb s) s (~~~ 1#s.cfg.w) :=
  exec_yields_of_gen h rfl

/-- A step at the word of a command yields that command's mask, under any other name of the same value. -/
theorem step_yields_of_exec {s : State} {i : Instr} {m m' : Mask s.cfg.w}
    (hd : decode s.cfg.hasButFromTo s.cmd = .instr i) (executed : Yields (exec i s) s m) (value : m = m') :
    Yields (step s) s m' := by
  rw [step_eq_exec hd, ← value]
  exact executed

/-- The set bits of an answer may be named by any predicate that agrees below `W`. -/
theorem YieldsBits.congr {o : Host.Outcome State Fault Refusal} {s : State} {p q : Nat → Prop} (h : YieldsBits o s p)
    (same : ∀ k, k < s.cfg.w → (p k ↔ q k)) : YieldsBits o s q := by
  obtain ⟨m, yields, bits⟩ := h
  exact ⟨m, yields, fun k hk => (bits k hk).trans (same k hk)⟩

/-- A command of OP 0x0 to 0x5 yields the bits of its closed form. -/
theorem exec_yieldsBits_of_opcode_le_five {s : State} {i : Instr} {p : Nat → Prop} (h : s.cfg.Supported)
    (primitive : i.opcode ≤ 0x5) (same : ∀ k, selects s.cfg.w i k = true ↔ p k) : YieldsBits (exec i s) s p :=
  (exec_yields_of_legal h (legal_of_opcode_le_five primitive s.cfg)).congr fun k _ => same k

/-! ### Each of the six commands -/

/-- Settles O10: every word of OP 0x0 decodes to `all`, whose row of `Gen` is the complement of zero. -/
theorem allSetsEveryBit : Obligations.AllSetsEveryBit := by
  have decoded := decode_of_opcode_le_five (i := .all) (op := 0x0) (by decide) rfl
  refine ⟨decoded, fun s h => ⟨exec_all_yields h, ?_⟩, fun s hw hc => ?_⟩
  · exact exec_yieldsBits_of_opcode_le_five h (by decide) fun _ => iff_of_true rfl trivial
  · exact step_yields_of_exec (decoded _ _ (hc ▸ rfl)) (exec_all_yields (.inl hw)) (by rw [hw]; decide)

/-- Settles O11: every word of OP 0x1 decodes to `none`, whose row of `Gen` is zero. -/
theorem noneClearsEveryBit : Obligations.NoneClearsEveryBit := by
  have decoded := decode_of_opcode_le_five (i := .none) (op := 0x1) (by decide) rfl
  refine ⟨decoded, fun s h => ⟨exec_none_yields h, ?_⟩, fun s hw hc => ?_⟩
  · exact exec_yieldsBits_of_opcode_le_five h (by decide) fun _ => iff_of_false Bool.false_ne_true id
  · exact step_yields_of_exec (decoded _ _ (hc ▸ rfl)) (exec_none_yields (.inl hw)) (by rw [hw])

/-- Settles O12: every word of OP 0x2 decodes to `msb`, whose row of `Gen` is a one-bit value moved to the top. -/
theorem msbSetsTheHighestBitOnly : Obligations.MsbSetsTheHighestBitOnly := by
  have decoded := decode_of_opcode_le_five (i := .msb) (op := 0x2) (by decide) rfl
  refine ⟨decoded, fun s h => ⟨exec_msb_yields h, ?_⟩, fun s hw hc => ?_, fun s hw hc => ?_⟩
  · exact exec_yieldsBits_of_opcode_le_five h (by decide) fun _ => beq_iff_eq
  · exact step_yields_of_exec (decoded _ _ (hc ▸ rfl)) (exec_msb_yields (.inl hw)) (by rw [hw]; decide)
  · exact step_yields_of_exec (decoded _ _ (hc ▸ rfl)) (exec_msb_yields (.inr (.inr (.inr hw)))) (by rw [hw]; decide)

/-- Settles O13: every word of OP 0x3 decodes to `but_msb`, whose row of `Gen` is the complement of that of `msb`. -/
theorem butMsbClearsTheHighestBitOnly : Obligations.ButMsbClearsTheHighestBitOnly := by
  have decoded := decode_of_opcode_le_five (i := .butMsb) (op := 0x3) (by decide) rfl
  refine ⟨decoded, fun s h => ⟨exec_butMsb_yields h, ?_⟩, fun s hw hc => ?_⟩
  · exact exec_yieldsBits_of_opcode_le_five h (by decide) fun _ => bne_iff_ne
  · exact step_yields_of_exec (decoded _ _ (hc ▸ rfl)) (exec_butMsb_yields (.inl hw)) (by rw [hw]; decide)

/-- Settles O14: every word of OP 0x4 decodes to `lsb`, whose row of `Gen` is a one-bit value left in place. -/
theorem lsbSetsTheLowestBitOnly : Obligations.LsbSetsTheLowestBitOnly := by
  have decoded := decode_of_opcode_le_five (i := .lsb) (op := 0x4) (by decide) rfl
  refine ⟨decoded, fun s h => ⟨exec_lsb_yields h, ?_⟩, fun s hw hc => ?_⟩
  · exact exec_yieldsBits_of_opcode_le_five h (by decide) fun _ => beq_iff_eq
  · exact step_yields_of_exec (decoded _ _ (hc ▸ rfl)) (exec_lsb_yields (.inl hw)) (by rw [hw])

/-- Settles O15: every word of OP 0x5 decodes to `but_lsb`, whose row of `Gen` is the complement of that of `lsb`. -/
theorem butLsbClearsTheLowestBitOnly : Obligations.ButLsbClearsTheLowestBitOnly := by
  have decoded := decode_of_opcode_le_five (i := .butLsb) (op := 0x5) (by decide) rfl
  refine ⟨decoded, fun s h => ⟨exec_butLsb_yields h, ?_⟩, fun s hw hc => ?_⟩
  · exact exec_yieldsBits_of_opcode_le_five h (by decide) fun _ => bne_iff_ne
  · exact step_yields_of_exec (decoded _ _ (hc ▸ rfl)) (exec_butLsb_yields (.inl hw)) (by rw [hw]; decide)

/-! ### Their laws -/

/-- A mask and its complement share no bit and together make up `all`. -/
theorem complement_laws {w : Nat} (v : Mask w) : v ||| ~~~ v = ~~~ 0#w ∧ v &&& ~~~ v = 0#w :=
  ⟨by rw [BitVec.not_zero, BitVec.or_not_self], BitVec.and_not_self v⟩

/-- Settles O16: `but_msb` and `but_lsb` answer the complements of `msb` and `lsb`. -/
theorem primitiveMaskLaws : Obligations.PrimitiveMaskLaws := by
  intro s h
  obtain ⟨msbOr, msbAnd⟩ := complement_laws (1#s.cfg.w <<< (s.cfg.w - 1))
  obtain ⟨lsbOr, lsbAnd⟩ := complement_laws 1#s.cfg.w
  exact ⟨_, _, _, _, _, _, exec_all_yields h, exec_none_yields h, exec_msb_yields h, exec_butMsb_yields h,
    exec_lsb_yields h, exec_butLsb_yields h, BitVec.xor_zero, msbOr, msbAnd, lsbOr, lsbAnd⟩

end Sys2Proof.Machine
end

/-! # The selector statements: commands that take one position (spec/41_single_bit_selectors.md R61 to R64) -/

section
namespace Sys2Proof.Machine

/-! ### The words of the selectors -/

/-- R42: a word of OP 0x6 decodes to `bit` of its field A, in every block. -/
theorem decode_bit (has : Bool) (cmd : CmdWord) (hop : opField cmd = 0x6) :
    decode has cmd = .instr (.bit (fieldA cmd)) :=
  decode_eq_instr_iff.mpr ⟨⟨hop ▸ rfl, rfl⟩, rfl⟩

/-- R42: a word of OP 0x7 decodes to `but_bit` of its field A, in every block. -/
theorem decode_butBit (has : Bool) (cmd : CmdWord) (hop : opField cmd = 0x7) :
    decode has cmd = .instr (.butBit (fieldA cmd)) :=
  decode_eq_instr_iff.mpr ⟨⟨hop ▸ rfl, rfl⟩, rfl⟩

/-! ### What they answer and when they reject -/

theorem exec_bit_yields {s : State} {n : Nat} (h : s.cfg.Supported) (hn : n < s.cfg.w) :
    Yields (exec (.bit n) s) s (1#s.cfg.w <<< n) :=
  exec_yields_of_gen h (checkPos_below hn _)

theorem exec_butBit_yields {s : State} {n : Nat} (h : s.cfg.Supported) (hn : n < s.cfg.w) :
    Yields (exec (.butBit n) s) s (~~~ (1#s.cfg.w <<< n)) :=
  exec_yields_of_gen h (checkPos_below hn _)

/-- In a supported block a command rejects for the reason of its row of `Gen`. -/
theorem exec_rejects_of_gen {s : State} {i : Instr} {r : Rejection} (h : s.cfg.Supported)
    (rejected : gen s.cfg (Config.two_le_of_supported h) (.instr i) = .reject r) : Rejects (exec i s) s r := by
  rw [Rejects, exec_eq_evaluate_gen, evaluate_supported h, rejected, report_reject]

theorem exec_bit_rejects {s : State} {n : Nat} (h : s.cfg.Supported) (hn : s.cfg.w ≤ n) :
    Rejects (exec (.bit n) s) s (.rangeConstraintViolation (.aOutOfRange n)) :=
  exec_rejects_of_gen h (checkPos_above hn _)

theorem exec_butBit_rejects {s : State} {n : Nat} (h : s.cfg.Supported) (hn : s.cfg.w ≤ n) :
    Rejects (exec (.butBit n) s) s (.rangeConstraintViolation (.aOutOfRange n)) :=
  exec_rejects_of_gen h (checkPos_above hn _)

/-- Settles O18: below W the position check passes and a one-bit value is moved to `n`; from W on the check rejects. -/
theorem bitSetsOnePosition : Obligations.BitSetsOnePosition := by
  refine ⟨decode_bit, fun s n h hn => ⟨exec_bit_yields h hn, ?_⟩,
    fun s n h hn => ⟨exec_bit_rejects h hn, rfl⟩, fun s hw hc => ?_⟩
  · exact (exec_yields_of_legal (i := .bit n) h hn).congr fun k _ => beq_iff_eq
  · have decoded : decode s.cfg.hasButFromTo s.cmd = .instr (.bit 7) := hc ▸ decode_bit _ 0x6007 rfl
    exact step_yields_of_exec decoded (exec_bit_yields (.inl hw) (by omega)) (by rw [hw]; decide)

/-- Settles O19: as O18, with the complement of the mask of `bit n`. -/
theorem butBitClearsOnePosition : Obligations.ButBitClearsOnePosition := by
  refine ⟨decode_butBit, fun s n h hn => ⟨exec_butBit_yields h hn, ?_⟩,
    fun s n h hn => ⟨exec_butBit_rejects h hn, rfl⟩, fun s hw hc => ?_⟩
  · exact (exec_yields_of_legal (i := .butBit n) h hn).congr fun k _ => bne_iff_ne
  · have decoded : decode s.cfg.hasButFromTo s.cmd = .instr (.butBit 3) := hc ▸ decode_butBit _ 0x7003 rfl
    exact step_yields_of_exec decoded (exec_butBit_yields (.inl hw) (by omega)) (by rw [hw]; decide)

/-! ### Corner cases -/

/-- Settles O20: at position 0 nothing is shifted, at W - 1 the shift is that of `msb`, field B is an ignored field, and
field A is below 64. -/
theorem selectorCornerCases : Obligations.SelectorCornerCases := by
  refine ⟨fun s h => ?_, fun s n h hn => ⟨exec_bit_rejects h hn, exec_butBit_rejects h hn, rfl⟩,
    fun s cmd cmd' hop hA selector => ?_, fun s hw selector => ?_⟩
  · have hw := Config.two_le_of_supported h
    have lowest : 0 < s.cfg.w := by omega
    have highest : s.cfg.w - 1 < s.cfg.w := by omega
    have unmoved : 1#s.cfg.w <<< 0 = 1#s.cfg.w := BitVec.shiftLeft_zero _
    have bitZero := unmoved ▸ exec_bit_yields h lowest
    have butBitZero := unmoved ▸ exec_butBit_yields h lowest
    exact ⟨_, _, _, _, exec_lsb_yields h, bitZero, exec_butLsb_yields h, butBitZero,
      exec_msb_yields h, exec_bit_yields h highest, exec_butMsb_yields h, exec_butBit_yields h highest⟩
  · have usesNoB : (opField cmd).toNat ≤ 0x9 := by
      rcases selector with op | op <;> simp [op]
    exact ignoredFieldsChangeNothing s cmd cmd' hop (.inr ⟨usesNoB, hA⟩)
  · have h : s.cfg.Supported := .inr (.inr (.inr hw))
    have below : fieldA s.cmd < s.cfg.w := hw ▸ fieldA_lt s.cmd
    rcases selector with op | op
    · exact ⟨_, step_yields_of_exec (decode_bit _ _ op) (exec_bit_yields h below) rfl⟩
    · exact ⟨_, step_yields_of_exec (decode_butBit _ _ op) (exec_butBit_yields h below) rfl⟩

/-! ### Population counts -/

/-- A one-bit value moved to a position below `w` keeps its one set bit: `n` stands once among the positions. -/
theorem popcount_one_shiftLeft {w n : Nat} (hn : n < w) : popcount (1#w <<< n) = 1 := by
  have bits (k : Nat) (_ : k < w) : (1#w <<< n).getLsbD k = (k == n) := getLsbD_one_shiftLeft hn
  rw [popcount_eq_countP _ _ bits]
  exact List.count_eq_one_of_mem List.nodup_range (List.mem_range.mpr hn)

/-- Settles O21: the one set bit of `bit n`, and the count of a complement. -/
theorem selectorPopcounts : Obligations.SelectorPopcounts := by
  intro s n h hn
  have atN : (1#s.cfg.w <<< n).getLsbD n = true :=
    (getLsbD_one_shiftLeft hn).trans (decide_eq_true rfl)
  refine ⟨1#s.cfg.w <<< n, exec_bit_yields h hn, popcount_one_shiftLeft hn, atN, exec_butBit_yields h hn, ?_⟩
  rw [popcount_not, popcount_one_shiftLeft hn]

end Sys2Proof.Machine
end

/-! # The range statements: commands that build a run of set bits (spec/42_range_mask_builders.md R66 to R80) -/

section
namespace Sys2Proof.Machine

/-! ### The words of the builders -/

/-- R42: a word of OP 0x8 decodes to `up_to` of its field A, in every block. -/
theorem decode_upTo (has : Bool) (cmd : CmdWord) (hop : opField cmd = 0x8) :
    decode has cmd = .instr (.upTo (fieldA cmd)) :=
  decode_eq_instr_iff.mpr ⟨⟨hop ▸ rfl, rfl⟩, rfl⟩

/-- R42: a word of OP 0x9 decodes to `down_to` of its field A, in every block. -/
theorem decode_downTo (has : Bool) (cmd : CmdWord) (hop : opField cmd = 0x9) :
    decode has cmd = .instr (.downTo (fieldA cmd)) :=
  decode_eq_instr_iff.mpr ⟨⟨hop ▸ rfl, rfl⟩, rfl⟩

/-- R42: a word of OP 0xA decodes to `from_to` of its fields A and B, in every block. -/
theorem decode_fromTo (has : Bool) (cmd : CmdWord) (hop : opField cmd = 0xA) :
    decode has cmd = .instr (.fromTo (fieldA cmd) (fieldB cmd)) :=
  decode_eq_instr_iff.mpr ⟨⟨hop ▸ rfl, rfl, rfl⟩, rfl⟩

/-- R47: a word of OP 0xB decodes to `but_from_to` of its fields A and B where the block has it, and to the illegal
operation 0xB elsewhere. -/
theorem decode_butFromTo (has : Bool) (cmd : CmdWord) (hop : opField cmd = 0xB) :
    decode has cmd = if has then .instr (.butFromTo (fieldA cmd) (fieldB cmd)) else .illegal 0xB :=
  Instr.StandsIn.decode_eq (i := .butFromTo _ _) ⟨hop ▸ rfl, rfl, rfl⟩ has

/-! ### When a command is rejected -/

/-- The range check rejects for whatever cause of R82 it meets: the order of its tests keeps the causes apart. -/
theorem checkRange_rejected {w n1 n2 : Nat} {r : Rejection} (cause : RangeRejectedFor w n1 n2 r)
    (rest : n1 < w → n2 < w → n1 < n2 → GenOutcome w) : checkRange w n1 n2 rest = .reject r := by
  obtain ⟨low, rfl⟩ | ⟨h1, high, rfl⟩ | ⟨h1, h2, order, rfl⟩ := cause
  · exact checkRange_lowEnd low rest
  · exact checkRange_highEnd h1 high rest
  · exact checkRange_order h1 h2 order rest

theorem genButFromTo_absent {w : Nat} (hw : 2 ≤ w) (n1 n2 : Nat) :
    genButFromTo hw false n1 n2 = .reject (.illegalOperation 0xB) := rfl

theorem genButFromTo_present {w : Nat} (hw : 2 ≤ w) (n1 n2 : Nat) :
    genButFromTo hw true n1 n2 = checkRange w n1 n2 fun _ _ _ => .ok (~~~ (upToVal hw n2 &&& downToVal hw n1)) := rfl

/-- `Gen` rejects a command for exactly the causes of R82 that the command meets. -/
theorem gen_eq_reject_iff {c : Config} (hw : 2 ≤ c.w) {i : Instr} {r : Rejection} :
    gen c hw (.instr i) = .reject r ↔ RejectedFor c i r := by
  refine ⟨fun rejected => ?_, fun cause => ?_⟩
  · have outcome := gen_outcomeFor c hw i
    rw [rejected] at outcome
    exact outcome
  · cases i with
    | all | none | msb | butMsb | lsb | butLsb => exact cause.elim
    | bit n | butBit n | upTo n | downTo n =>
      obtain ⟨above, rfl⟩ := cause
      exact checkPos_above above _
    | fromTo n1 n2 => exact checkRange_rejected cause _
    | butFromTo n1 n2 =>
      rw [gen]
      obtain ⟨absent, rfl⟩ | ⟨present, range⟩ := cause
      · rw [absent, genButFromTo_absent]
      · rw [present, genButFromTo_present]
        exact checkRange_rejected range _

/-- R82: in a supported block a command is rejected for exactly the causes that it meets. -/
theorem exec_rejects_iff {s : State} {i : Instr} {r : Rejection} (h : s.cfg.Supported) :
    Rejects (exec i s) s r ↔ RejectedFor s.cfg i r := by
  refine ⟨fun rejects => ?_, fun cause => exec_rejects_of_gen h ((gen_eq_reject_iff _).mpr cause)⟩
  obtain ⟨-, m, yields, -⟩ | ⟨r', cause, rejects'⟩ := exec_cases h i
  · cases yields.symm.trans rejects
  · cases rejects'.symm.trans rejects
    exact cause

/-! ### The masks that `from_to` and `but_from_to` answer -/

theorem exec_fromTo_yields {s : State} {n1 n2 : Nat} (h : s.cfg.Supported) (ascending : n1 < n2) (below : n2 < s.cfg.w) :
    Yields (exec (.fromTo n1 n2) s) s
      (upToVal (Config.two_le_of_supported h) n2 &&& downToVal (Config.two_le_of_supported h) n1) :=
  exec_yields_of_gen h (checkRange_legal ascending below _)

theorem exec_butFromTo_yields {s : State} {n1 n2 : Nat} (h : s.cfg.Supported) (present : s.cfg.hasButFromTo = true)
    (ascending : n1 < n2) (below : n2 < s.cfg.w) :
    Yields (exec (.butFromTo n1 n2) s) s
      (~~~ (upToVal (Config.two_le_of_supported h) n2 &&& downToVal (Config.two_le_of_supported h) n1)) := by
  refine exec_yields_of_gen h ?_
  rw [gen, present, genButFromTo_present]
  exact checkRange_legal ascending below _

/-! ### The iterations -/

section Iteration
variable {w : Nat} {v : Nat → Mask w}

/-- R66: a sequence that follows the source's steps reaches `UpToVal` after `n` of them. -/
theorem upTo_iteration_eq (hw : 2 ≤ w) (first : v 0 = 1#w) (next : ∀ k, v (k + 1) = v k ||| v k <<< 1) (n : Nat) :
    v n = upToVal hw n := by
  rw [eq_repeatTimes (extendUp hw) v next, first]
  rfl

/-- R70: a sequence that follows the source's steps reaches `DownToVal` after `w - 1 - n` of them. -/
theorem downTo_iteration_eq (hw : 2 ≤ w) (first : v 0 = 1#w <<< (w - 1)) (next : ∀ k, v (k + 1) = v k ||| v k >>> 1)
    (n : Nat) : v (w - 1 - n) = downToVal hw n := by
  rw [eq_repeatTimes (extendDown hw) v next, first]
  rfl

/-- R67: the loop invariant of `up_to`. Below width 2 there is only the value before the loop. -/
theorem upTo_iteration_bits (first : v 0 = 1#w) (next : ∀ k, v (k + 1) = v k ||| v k <<< 1) {k i : Nat} (hk : k < w)
    (hi : i < w) : (v k).getLsbD i = true ↔ i ≤ k := by
  rcases Nat.lt_or_ge w 2 with narrow | hw
  · obtain ⟨rfl, rfl, rfl⟩ : w = 1 ∧ k = 0 ∧ i = 0 := by omega
    simp [first]
  · rw [upTo_iteration_eq hw first next, getLsbD_upToVal hw hk, decide_eq_true_iff]

/-- R71: the loop invariant of `down_to`. Below width 2 there is only the value before the loop. -/
theorem downTo_iteration_bits (first : v 0 = 1#w <<< (w - 1)) (next : ∀ k, v (k + 1) = v k ||| v k >>> 1) {k i : Nat}
    (hk : k < w) (hi : i < w) : (v k).getLsbD i = true ↔ w - 1 - k ≤ i := by
  rcases Nat.lt_or_ge w 2 with narrow | hw
  · obtain ⟨rfl, rfl, rfl⟩ : w = 1 ∧ k = 0 ∧ i = 0 := by omega
    simp [first]
  · have reached : v k = downToVal hw (w - 1 - k) := by
      rw [← downTo_iteration_eq hw first next, show w - 1 - (w - 1 - k) = k by omega]
    rw [reached, getLsbD_downToVal hw (by omega), decide_eq_true_iff]
    exact and_iff_left hi

end Iteration

/-! ### The builders at the ends of the mask, and against each other -/

section Builders
variable {w : Nat} (hw : 2 ≤ w)

/-- A mask with every bit set is `all`. -/
theorem eq_all_of_bits {v : Mask w} (every : ∀ k, k < w → v.getLsbD k = true) : v = ~~~ 0#w := by
  refine BitVec.eq_of_getLsbD_eq fun k hk => ?_
  rw [every k hk, BitVec.not_zero, BitVec.getLsbD_allOnes, decide_eq_true hk]

theorem upToVal_zero : upToVal hw 0 = 1#w := rfl

theorem downToVal_highest : downToVal hw (w - 1) = 1#w <<< (w - 1) := by
  rw [downToVal, Nat.sub_self, repeatTimes_zero, topMask_eq]

theorem upToVal_highest : upToVal hw (w - 1) = ~~~ 0#w := by
  refine eq_all_of_bits fun k hk => ?_
  rw [getLsbD_upToVal hw (by omega)]
  exact decide_eq_true (by omega)

theorem downToVal_zero : downToVal hw 0 = ~~~ 0#w := by
  refine eq_all_of_bits fun k hk => ?_
  rw [getLsbD_downToVal hw (by omega)]
  exact decide_eq_true ⟨Nat.zero_le k, hk⟩

/-- R74: the bits of a range. -/
theorem range_bits {n1 n2 k : Nat} (h1 : n1 < w) (h2 : n2 < w) (hk : k < w) :
    (upToVal hw n2 &&& downToVal hw n1).getLsbD k = true ↔ n1 ≤ k ∧ k ≤ n2 := by
  rw [getLsbD_upToVal_and_downToVal hw h1 h2 hk, decide_eq_true_iff]

/-- A range that begins at the lowest bit is what `up_to` builds. -/
theorem range_from_zero (n : Nat) : upToVal hw n &&& downToVal hw 0 = upToVal hw n := by
  rw [downToVal_zero, BitVec.not_zero, BitVec.and_allOnes]

/-- A range that ends at the highest bit is what `down_to` builds. -/
theorem range_to_highest (n : Nat) : upToVal hw (w - 1) &&& downToVal hw n = downToVal hw n := by
  rw [upToVal_highest, BitVec.not_zero, BitVec.allOnes_and]

/-- The range of all positions is `all`. -/
theorem range_full : upToVal hw (w - 1) &&& downToVal hw 0 = ~~~ 0#w := by
  rw [range_from_zero, upToVal_highest]

/-- Both builders from one position share that position alone. -/
theorem upToVal_and_downToVal_same {n : Nat} (hn : n < w) : upToVal hw n &&& downToVal hw n = 1#w <<< n := by
  refine BitVec.eq_of_getLsbD_eq fun k hk => ?_
  rw [getLsbD_upToVal_and_downToVal hw hn hn hk, getLsbD_one_shiftLeft hn]
  exact decide_eq_decide.mpr (by omega)

/-- Both builders from one position leave no position out. -/
theorem upToVal_or_downToVal_same {n : Nat} (hn : n < w) : upToVal hw n ||| downToVal hw n = ~~~ 0#w := by
  refine eq_all_of_bits fun k hk => ?_
  rw [BitVec.getLsbD_or, getLsbD_upToVal hw hn, getLsbD_downToVal hw hn, ← Bool.decide_or]
  exact decide_eq_true (by omega)

/-- `up_to` and `down_to` from the next position are complementary. -/
theorem upToVal_xor_downToVal_succ {n : Nat} (hn : n < w - 1) : upToVal hw n ^^^ downToVal hw (n + 1) = ~~~ 0#w := by
  refine eq_all_of_bits fun k hk => ?_
  rw [BitVec.getLsbD_xor, getLsbD_upToVal hw (by omega), getLsbD_downToVal hw (by omega)]
  rcases Nat.lt_or_ge n k with above | upTo
  · simp [hk, Nat.not_le_of_lt above, Nat.succ_le_of_lt above]
  · simp [hk, upTo, Nat.not_lt_of_le upTo]

/-- R74: a range has as many set bits as positions. -/
theorem popcount_range {n1 n2 : Nat} (ascending : n1 ≤ n2) (below : n2 < w) :
    popcount (upToVal hw n2 &&& downToVal hw n1) = n2 - n1 + 1 := by
  rw [popcount_eq_countP _ _ fun k hk => getLsbD_upToVal_and_downToVal hw (by omega) below hk]
  exact countP_range_interval w n1 n2 ascending below

theorem popcount_upToVal {n : Nat} (hn : n < w) : popcount (upToVal hw n) = n + 1 := by
  rw [← range_from_zero, popcount_range hw (Nat.zero_le n) hn, Nat.sub_zero]

theorem popcount_downToVal {n : Nat} (hn : n < w) : popcount (downToVal hw n) = w - n := by
  rw [← range_to_highest, popcount_range hw (by omega) (by omega)]
  omega

end Builders

/-! ### The builders that answer `all` -/

theorem exec_upTo_highest_yields {s : State} (h : s.cfg.Supported) :
    Yields (exec (.upTo (s.cfg.w - 1)) s) s (~~~ 0#s.cfg.w) := by
  have hw := Config.two_le_of_supported h
  rw [← upToVal_highest hw]
  exact exec_upTo_yields h (by omega)

theorem exec_downTo_zero_yields {s : State} (h : s.cfg.Supported) :
    Yields (exec (.downTo 0) s) s (~~~ 0#s.cfg.w) := by
  have hw := Config.two_le_of_supported h
  rw [← downToVal_zero hw]
  exact exec_downTo_yields h (by omega)

/-! ### `up_to` -/

/-- Settles O22: the model iterates as the source does, and its check rejects from W on. -/
theorem upToIteratesUpward : Obligations.UpToIteratesUpward := by
  refine ⟨decode_upTo, fun s n v h hn first next => ?_, fun s n h hn => ⟨?_, rfl⟩, fun s h => ?_, fun s hw hc => ?_⟩
  · rw [upTo_iteration_eq (Config.two_le_of_supported h) first next]
    exact exec_upTo_yields h hn
  · exact (exec_rejects_iff (i := .upTo n) h).mpr ⟨hn, rfl⟩
  · have hw := Config.two_le_of_supported h
    exact ⟨_, _, exec_lsb_yields h, exec_all_yields h, exec_upTo_yields h (by omega), exec_upTo_highest_yields h⟩
  · have decoded : decode s.cfg.hasButFromTo s.cmd = .instr (.upTo 3) := hc ▸ decode_upTo _ 0x8003 rfl
    have value : ∀ two : 2 ≤ s.cfg.w, upToVal two 3 = BitVec.ofNat s.cfg.w 0x0F := by
      rw [hw]
      decide
    exact step_yields_of_exec decoded (exec_upTo_yields (.inl hw) (by omega)) (value _)

/-- Settles O23: the closed form of the answered mask, and the loop invariant at any width. -/
theorem upToClosedForm : Obligations.UpToClosedForm :=
  ⟨fun _ n h hn => (exec_yields_of_legal (i := .upTo n) h hn).congr fun _ _ => decide_eq_true_iff,
    fun _ _ first next _ _ => upTo_iteration_bits first next⟩

/-- Settles O24: `up_to n` is the range from 0 to `n`, which is full at W - 1. -/
theorem upToPopcount : Obligations.UpToPopcount :=
  ⟨fun _ _ h hn => ⟨_, exec_upTo_yields h hn, popcount_upToVal _ hn⟩,
    fun _ h => ⟨_, exec_all_yields h, exec_upTo_highest_yields h⟩⟩

/-! ### `down_to` -/

/-- Settles O26: the model iterates as the source does, and its check rejects from W on. -/
theorem downToIteratesDownward : Obligations.DownToIteratesDownward := by
  refine ⟨decode_downTo, fun s n v h hn first next => ?_, fun s n h hn => ⟨?_, rfl⟩, fun s h => ?_, fun s hw hc => ?_⟩
  · rw [downTo_iteration_eq (Config.two_le_of_supported h) first next]
    exact exec_downTo_yields h hn
  · exact (exec_rejects_iff (i := .downTo n) h).mpr ⟨hn, rfl⟩
  · have hw := Config.two_le_of_supported h
    have highest := exec_downTo_yields h (show s.cfg.w - 1 < s.cfg.w by omega)
    rw [downToVal_highest] at highest
    exact ⟨_, _, exec_msb_yields h, exec_all_yields h, highest, exec_downTo_zero_yields h⟩
  · have decoded : decode s.cfg.hasButFromTo s.cmd = .instr (.downTo 5) := hc ▸ decode_downTo _ 0x9005 rfl
    have value : ∀ two : 2 ≤ s.cfg.w, downToVal two 5 = BitVec.ofNat s.cfg.w 0xE0 := by
      rw [hw]
      decide
    exact step_yields_of_exec decoded (exec_downTo_yields (.inl hw) (by omega)) (value _)

/-- Settles O27: the closed form of the answered mask, and the loop invariant at any width. -/
theorem downToClosedForm : Obligations.DownToClosedForm :=
  ⟨fun _ n h hn => (exec_yields_of_legal (i := .downTo n) h hn).congr fun _ _ => decide_eq_true_iff,
    fun _ _ first next _ _ => downTo_iteration_bits first next⟩

/-- Settles O28: `down_to n` is the range from `n` to W - 1, which is full at 0. -/
theorem downToPopcount : Obligations.DownToPopcount :=
  ⟨fun _ _ h hn => ⟨_, exec_downTo_yields h hn, popcount_downToVal _ hn⟩,
    fun _ h => ⟨_, exec_all_yields h, exec_downTo_zero_yields h⟩⟩

/-! ### `from_to` -/

/-- A range that does not ascend is rejected, never swapped (R75). -/
theorem exec_fromTo_rejects_not_ascending {s : State} {n1 n2 : Nat} (h : s.cfg.Supported) (h1 : n1 < s.cfg.w)
    (order : n2 ≤ n1) : Rejects (exec (.fromTo n1 n2) s) s (.rangeConstraintViolation (.notAscending n1 n2)) :=
  (exec_rejects_iff (i := .fromTo n1 n2) h).mpr (.inr (.inr ⟨h1, Nat.lt_of_le_of_lt order h1, order, rfl⟩))

/-- Settles O29: on an ascending range the meaning is the AND of the masks of the two builders, and each rejection is a
cause of R82. -/
theorem fromToIntersectsTheBuilders : Obligations.FromToIntersectsTheBuilders := by
  refine ⟨decode_fromTo, fun s n1 n2 h ascending below => ?_, fun s n1 n2 h low => ⟨?_, rfl⟩,
    fun s n1 n2 h h1 high => ⟨?_, rfl⟩, fun s n1 n2 h h1 _ order => ⟨?_, rfl⟩, fun s hw hc => ?_⟩
  · have h1 : n1 < s.cfg.w := Nat.lt_trans ascending below
    exact ⟨_, _, exec_upTo_yields h below, exec_downTo_yields h h1, exec_fromTo_yields h ascending below,
      fun i hi => range_bits _ h1 below hi⟩
  · exact (exec_rejects_iff (i := .fromTo n1 n2) h).mpr (.inl ⟨low, rfl⟩)
  · exact (exec_rejects_iff (i := .fromTo n1 n2) h).mpr (.inr (.inl ⟨h1, high, rfl⟩))
  · exact exec_fromTo_rejects_not_ascending h h1 order
  · have decoded : decode s.cfg.hasButFromTo s.cmd = .instr (.fromTo 2 5) := hc ▸ decode_fromTo _ 0xA142 rfl
    have value : ∀ two : 2 ≤ s.cfg.w, upToVal two 5 &&& downToVal two 2 = BitVec.ofNat s.cfg.w 0x3C := by
      rw [hw]
      decide
    exact step_yields_of_exec decoded (exec_fromTo_yields (.inl hw) (by omega) (by omega)) (value _)

/-- Settles O30: the AND of the masks of the two builders has the bits of the range, which are counted. -/
theorem fromToClosedForm : Obligations.FromToClosedForm := by
  intro s n1 n2 h ascending below
  have h1 : n1 < s.cfg.w := Nat.lt_trans ascending below
  exact ⟨_, _, _, exec_fromTo_yields h ascending below, fun i hi => range_bits _ h1 below hi,
    popcount_range _ ascending.le below, exec_upTo_yields h below, exec_downTo_yields h h1, rfl⟩

/-- Settles O31: a range that begins at 0 or ends at W - 1 is one builder's, and one that does not ascend is rejected. -/
theorem fromToCornerCases : Obligations.FromToCornerCases := by
  intro s h
  have hw := Config.two_le_of_supported h
  refine ⟨⟨_, exec_all_yields h, ?_⟩, fun n2 h0 below => ⟨_, exec_upTo_yields h below, ?_⟩,
    fun n1 h1 => ⟨_, exec_downTo_yields h (by omega), ?_⟩, fun n below => ?_, fun n hn => ?_,
    fun n1 n2 order h1 => exec_fromTo_rejects_not_ascending h h1 order.le⟩
  · rw [← range_full hw]
    exact exec_fromTo_yields h (by omega) (by omega)
  · rw [← range_from_zero hw]
    exact exec_fromTo_yields h h0 below
  · rw [← range_to_highest hw]
    exact exec_fromTo_yields h (by omega) (by omega)
  · refine ⟨_, exec_fromTo_yields h n.lt_succ_self below, ?_⟩
    rw [popcount_range hw n.le_succ below, Nat.succ_eq_add_one, Nat.add_sub_cancel_left]
  · refine ⟨exec_fromTo_rejects_not_ascending h hn le_rfl, rfl, _, _, exec_upTo_yields h hn,
      exec_downTo_yields h hn, ?_⟩
    rw [upToVal_and_downToVal_same hw hn]
    exact exec_bit_yields h hn

/-! ### `but_from_to` -/

/-- R76: where the block has `but_from_to`, it is rejected for exactly the reasons `from_to` is. -/
theorem exec_butFromTo_rejects_iff {s : State} {n1 n2 : Nat} {r : Rejection} (h : s.cfg.Supported)
    (present : s.cfg.hasButFromTo = true) :
    Rejects (exec (.butFromTo n1 n2) s) s r ↔ Rejects (exec (.fromTo n1 n2) s) s r := by
  simp [exec_rejects_iff h, RejectedFor, present]

/-- Settles O32: the meaning and the rejections of `but_from_to` are those of `from_to` with the mask complemented, and
decoding never reaches it in a block without it. -/
theorem butFromToComplementsFromTo : Obligations.ButFromToComplementsFromTo := by
  refine ⟨decode_butFromTo true, decode_butFromTo false, fun s h absent hop => ?_,
    fun s n1 n2 h present ascending below => ?_, fun s n1 n2 r h present => exec_butFromTo_rejects_iff h present,
    fun s h present => ⟨_, exec_none_yields h, ?_⟩, fun s n h present hn => ?_, fun s hw present hc => ?_⟩
  · exact step_rejects_illegal h (absent ▸ decode_butFromTo false s.cmd hop)
  · refine ⟨_, exec_fromTo_yields h ascending below, exec_butFromTo_yields h present ascending below, fun i hi => ?_⟩
    rw [BitVec.getLsbD_not, getLsbD_upToVal_and_downToVal _ (by omega) below hi]
    simp [hi]
  · have hw := Config.two_le_of_supported h
    have empty : ~~~ (upToVal hw (s.cfg.w - 1) &&& downToVal hw 0) = 0#s.cfg.w := by
      rw [range_full, BitVec.not_not]
    rw [← empty]
    exact exec_butFromTo_yields h present (by omega) (by omega)
  · exact (exec_butFromTo_rejects_iff h present).mpr (exec_fromTo_rejects_not_ascending h hn le_rfl)
  · have decoded : decode s.cfg.hasButFromTo s.cmd = .instr (.butFromTo 2 5) :=
      hc ▸ present ▸ decode_butFromTo true 0xB142 rfl
    have value : ∀ two : 2 ≤ s.cfg.w, ~~~ (upToVal two 5 &&& downToVal two 2) = BitVec.ofNat s.cfg.w 0xC3 := by
      rw [hw]
      decide
    exact step_yields_of_exec decoded (exec_butFromTo_yields (.inl hw) present (by omega) (by omega)) (value _)

/-- Settles O33: the laws of a complement, and the count of the positions outside the range. -/
theorem butFromToLaws : Obligations.ButFromToLaws := by
  intro s n1 n2 h present ascending below
  obtain ⟨orAll, andNone⟩ := complement_laws
    (upToVal (Config.two_le_of_supported h) n2 &&& downToVal (Config.two_le_of_supported h) n1)
  refine ⟨_, _, _, _, exec_all_yields h, exec_none_yields h, exec_fromTo_yields h ascending below,
    exec_butFromTo_yields h present ascending below, orAll, andNone, ?_⟩
  rw [popcount_not, popcount_range _ ascending.le below]

/-! ### Equalities between operations -/

/-- Settles O34: the builders at the ends of the mask, and against each other. -/
theorem operationEqualities : Obligations.OperationEqualities := by
  intro s h
  have hw := Config.two_le_of_supported h
  exact ⟨_, _, _, fun n => 1#s.cfg.w <<< n, upToVal hw, downToVal hw,
    exec_all_yields h, exec_lsb_yields h, exec_msb_yields h,
    fun _ hn => ⟨exec_bit_yields h hn, exec_upTo_yields h hn, exec_downTo_yields h hn⟩,
    upToVal_zero hw, downToVal_highest hw, upToVal_highest hw, downToVal_zero hw, rfl,
    fun _ hn => ⟨upToVal_and_downToVal_same hw hn, upToVal_or_downToVal_same hw hn⟩,
    fun _ hn => upToVal_xor_downToVal_succ hw hn⟩

end Sys2Proof.Machine
end

/-! # The exception statements: what is rejected, for which reason, and what stays (spec/60_exceptions.md R82 to R91) -/

section
namespace Sys2Proof

/-! ### Words that decode to no operation -/

/-- R6, R47: `but_from_to` is the one operation that a block can lack. -/
theorem available_eq_false_iff {i : Instr} {has : Bool} : i.available has = false ↔ i.opcode = 0xB ∧ has = false := by
  cases i <;> simp [Instr.available, Instr.opcode]

/-- R44, R47: all that it takes for a word to decode to an illegal operation. -/
theorem decode_eq_illegal_iff {has : Bool} {cmd : CmdWord} {op : OpField} :
    decode has cmd = .illegal op ↔ opField cmd = op ∧ (0xC ≤ op.toNat ∨ (op = 0xB ∧ has = false)) := by
  rcases Nat.lt_or_ge 0xB (opField cmd).toNat with reserved | hop
  · rw [decode_reserved reserved, Decoded.illegal.injEq]
    exact ⟨fun same => ⟨same, .inl (same ▸ reserved)⟩, And.left⟩
  · obtain ⟨i, stands⟩ := exists_standsIn hop
    have ⟨opcode, _⟩ := stands
    rw [stands.decode_eq]
    refine ⟨fun illegal => ?_, ?_⟩
    · split at illegal
      · cases illegal
      · next lacks =>
        cases illegal
        obtain ⟨isB, absent⟩ := available_eq_false_iff.mp (Bool.eq_false_of_not_eq_true lacks)
        exact ⟨BitVec.eq_of_toNat_eq (opcode.trans isB), .inr ⟨rfl, absent⟩⟩
    · rintro ⟨rfl, reserved | ⟨isB, absent⟩⟩
      · exact absurd hop (Nat.not_le_of_lt reserved)
      · have lacks : i.available has = false := available_eq_false_iff.mpr ⟨opcode.symm.trans (isB ▸ rfl), absent⟩
        rw [isB, lacks]
        rfl

end Sys2Proof

namespace Sys2Proof.Machine

/-! ### Refusals -/

/-- R83: an evaluation refuses for one reason only, an unsupported width, and then whatever it would evaluate. -/
theorem evaluate_eq_refused_iff {s : State} {g : 2 ≤ s.cfg.w → GenOutcome s.cfg.w} {ρ : Refusal} :
    evaluate s g = .refused ρ ↔ ¬ s.cfg.Supported ∧ ρ = .typeConstraintViolation s.cfg.w := by
  refine ⟨fun refused => ?_, fun ⟨unsupported, reason⟩ => reason ▸ evaluate_unsupported unsupported g⟩
  obtain ⟨unsupported, e⟩ | ⟨_, m, _, e⟩ | ⟨_, r, _, e⟩ := evaluate_cases s g
  · cases e.symm.trans refused
    exact ⟨unsupported, rfl⟩
  · cases e.symm.trans refused
  · cases e.symm.trans refused

theorem step_eq_refused_iff {s : State} {ρ : Refusal} :
    step s = .refused ρ ↔ ¬ s.cfg.Supported ∧ ρ = .typeConstraintViolation s.cfg.w := by
  rw [step_eq_evaluate_generate]
  exact evaluate_eq_refused_iff

theorem exec_eq_refused_iff {i : Instr} {s : State} {ρ : Refusal} :
    exec i s = .refused ρ ↔ ¬ s.cfg.Supported ∧ ρ = .typeConstraintViolation s.cfg.w := by
  rw [exec_eq_evaluate_gen]
  exact evaluate_eq_refused_iff

/-- Settles O36: a step and the meaning of a command refuse exactly where the width is unsupported. -/
theorem unsupportedWidthHasNoStep : Obligations.UnsupportedWidthHasNoStep := by
  refine ⟨fun s unsupported => ⟨?_, fun i => ?_⟩, fun s ρ supported => ⟨fun refused => ?_, fun i refused => ?_⟩⟩
  · exact step_eq_refused_iff.mpr ⟨unsupported, rfl⟩
  · exact exec_eq_refused_iff.mpr ⟨unsupported, rfl⟩
  · obtain ⟨unsupported, -⟩ := step_eq_refused_iff.mp refused
    exact unsupported supported
  · obtain ⟨unsupported, -⟩ := exec_eq_refused_iff.mp refused
    exact unsupported supported

/-! ### Reasons and their causes -/

theorem not_rangeRejectedFor_illegalOperation {w n1 n2 : Nat} {op : OpField} :
    ¬ RangeRejectedFor w n1 n2 (.illegalOperation op) := by
  rintro (⟨-, reason⟩ | ⟨-, -, reason⟩ | ⟨-, -, -, reason⟩) <;> cases reason

/-- R82: no command that the block has meets the cause of an illegal operation. -/
theorem not_rejectedFor_illegalOperation {c : Config} {i : Instr} {op : OpField}
    (available : i.available c.hasButFromTo = true) : ¬ RejectedFor c i (.illegalOperation op) := by
  intro cause
  cases i with
  | all | none | msb | butMsb | lsb | butLsb => exact cause
  | bit n | butBit n | upTo n | downTo n =>
    obtain ⟨-, reason⟩ := cause
    cases reason
  | fromTo n1 n2 => exact not_rangeRejectedFor_illegalOperation cause
  | butFromTo n1 n2 =>
    obtain ⟨absent, -⟩ | ⟨-, range⟩ := cause
    · cases absent.symm.trans available
    · exact not_rangeRejectedFor_illegalOperation range

/-- R44, R47: a step rejects an illegal operation exactly when decoding answers it: a command that it answers is one
the block has, and none of those is rejected so. -/
theorem step_rejects_illegal_iff {s : State} {op : OpField} (h : s.cfg.Supported) :
    Rejects (step s) s (.illegalOperation op) ↔ decode s.cfg.hasButFromTo s.cmd = .illegal op := by
  refine ⟨fun rejects => ?_, step_rejects_illegal h⟩
  cases hd : decode s.cfg.hasButFromTo s.cmd with
  | illegal op' =>
    cases (step_rejects_illegal h hd).symm.trans rejects
    rfl
  | instr i =>
    obtain ⟨-, available⟩ := decode_eq_instr_iff.mp hd
    rw [step_eq_exec hd] at rejects
    exact absurd ((exec_rejects_iff h).mp rejects) (not_rejectedFor_illegalOperation available)

/-- Settles O35: the causes are those of `Gen`, the illegal operations those of decoding, and the one refusal that of an
evaluation. -/
theorem rejectionReasonsCodesAndCauses : Obligations.RejectionReasonsCodesAndCauses := by
  refine ⟨fun s i r h _ => exec_rejects_iff h, fun s op h => (step_rejects_illegal_iff h).trans decode_eq_illegal_iff,
    fun s t answered => ?_, fun _ => rfl, fun _ => rfl, fun _ _ => rfl, fun _ => rfl, fun s => ?_⟩
  · obtain ⟨-, written⟩ := onlyOutputsAreWritten
    obtain ⟨-, -, accepted⟩ := written s t answered
    exact accepted
  · exact step_eq_refused_iff.trans (and_iff_left rfl)

/-! ### The order of the reasons -/

theorem Rejects.unique {o : Host.Outcome State Fault Refusal} {s : State} {r r' : Rejection} (first : Rejects o s r)
    (second : Rejects o s r') : r = r' := by
  cases first.symm.trans second
  rfl

/-- R86: either command with two positions, where the block has it, is rejected for the cause that its range meets. -/
theorem exec_rejects_range {s : State} {i : Instr} {n1 n2 : Nat} {r : Rejection} (h : s.cfg.Supported)
    (takes : i = .fromTo n1 n2 ∨ (i = .butFromTo n1 n2 ∧ s.cfg.hasButFromTo = true))
    (cause : RangeRejectedFor s.cfg.w n1 n2 r) : Rejects (exec i s) s r := by
  refine (exec_rejects_iff h).mpr ?_
  obtain rfl | ⟨rfl, present⟩ := takes
  · exact cause
  · exact .inr ⟨present, cause⟩

/-- Settles O37: decoding comes before every check, and the causes of a range are its checks in their order. -/
theorem rejectionPriority : Obligations.RejectionPriority := by
  refine ⟨fun s r r' => Rejects.unique, fun s h illegal => ?_, fun s i n1 n2 h takes => ⟨?_, ?_, ?_⟩,
    fun s hw => ⟨?_, ?_⟩⟩
  · exact (step_rejects_illegal_iff h).mpr (decode_eq_illegal_iff.mpr ⟨rfl, illegal⟩)
  · exact fun low => exec_rejects_range h takes (.inl ⟨low, rfl⟩)
  · exact fun h1 high => exec_rejects_range h takes (.inr (.inl ⟨h1, high, rfl⟩))
  · exact fun h1 h2 order => exec_rejects_range h takes (.inr (.inr ⟨h1, h2, order, rfl⟩))
  · exact exec_rejects_range (.inl hw) (.inl rfl) (.inl ⟨by omega, rfl⟩)
  · exact exec_rejects_range (.inl hw) (.inl rfl) (.inr (.inl ⟨by omega, by omega, rfl⟩))

/-! ### What a driven command leaves behind -/

/-- R81, R91: after a command, accepted, rejected or refused, only the values on the ports can differ. -/
theorem afterCommand_eq (s : State) (cmd : CmdWord) (draw : Nat) :
    ∃ (m : Mask s.cfg.w) (e : ErrCode), afterCommand s cmd draw = { s.present cmd with mask := m, err := e } := by
  unfold afterCommand
  cases outcome : driveCommand s cmd with
  | next t =>
    rw [driveCommand, step_eq_evaluate_generate] at outcome
    obtain ⟨_, m, _, rfl⟩ := evaluate_eq_next outcome
    exact ⟨m, 0b000, rfl⟩
  | fault f => exact ⟨Config.anyMask s.cfg.w draw, f.code, rfl⟩
  | refused ρ => exact ⟨s.mask, s.err, rfl⟩

/-- R91: the next command is driven on the same parameters, and a step reads no output. -/
theorem driveCommand_afterCommand (s : State) (before cmd : CmdWord) (draw : Nat) :
    driveCommand (afterCommand s before draw) cmd = driveCommand s cmd := by
  obtain ⟨m, e, after⟩ := afterCommand_eq s before draw
  rw [after]
  exact step_ignores_outputs (s.present cmd) m e

/-- Settles O46: a command has the outcome that it has without the one before, a mask among them. -/
theorem rejectionLeavesNoTrace : Obligations.RejectionLeavesNoTrace :=
  ⟨driveCommand_afterCommand, fun s before cmd draw _ _ _ yields =>
    (driveCommand_afterCommand s before cmd draw).trans yields⟩

end Sys2Proof.Machine
end

/-! # The reset and hazard statements: settled outputs, and commands one after another (spec/70_reset_and_hazards.md
R96 to R103) -/

section
namespace Sys2Proof.Machine

/-! ### The state before anything is driven -/

/-- R97: the command `all` of the model's reset state answers the mask that already stands there. -/
theorem step_reset : step State.reset = .next State.reset := by
  have word : decode State.reset.cfg.hasButFromTo State.reset.cmd = .instr .all := by decide
  rw [step_eq_exec word]
  exact exec_all_yields (s := State.reset) (by decide)

/-- Settles O49: the reset state is one that a step answers. -/
theorem resetStateIsSettled : Obligations.ResetStateIsSettled :=
  stepAnswersSettledState State.reset State.reset step_reset

/-! ### Sequences of commands -/

/-- R100: an earlier command changes the outcome of no later one, whatever it left on the ports. -/
theorem map_driveCommand_afterCommand (s : State) (before : CmdWord) (draw : Nat) (cmds : List CmdWord) :
    cmds.map (driveCommand (afterCommand s before draw)) = cmds.map (driveCommand s) :=
  List.map_congr_left fun cmd _ => driveCommand_afterCommand s before cmd draw

/-- Settles O47, by induction on the commands: the rest runs from the state that the first one leaves. -/
theorem eachCommandHasItsOwnOutcome : Obligations.EachCommandHasItsOwnOutcome := by
  intro s cmds
  induction cmds generalizing s with
  | nil => rfl
  | cons cmd rest ih => rw [runCommands_cons, ih, map_driveCommand_afterCommand, List.map_cons]

/-! ### Sampling -/

/-- R101: from `T_PD` on the sampled outputs are the settled ones; that the boundary counts as passed is the model's
choice (log 4). -/
theorem sampledPorts_of_sampledSettled {s : State} {elapsed : Nat} (h : s.cfg.Supported)
    (settled : SampledSettled s.cfg elapsed) (draw : Nat) : s.sampledPorts h elapsed draw = s.ports h draw :=
  if_pos settled

/-- Settles O52: sampled outputs that have settled are the port view of the accepted command. -/
theorem samplingAfterSettlingIsExact : Obligations.SamplingAfterSettlingIsExact := by
  intro s h elapsed draw m settled yields
  rw [sampledPorts_of_sampledSettled h settled, ports_of_yields h draw yields]

end Sys2Proof.Machine
end
